-- ==== Sys2Proof/Word.lean ====
section
/-! DEFINITION. The word types of the block: command word, data byte, line level, and one bit per pin of a port. -/

namespace Sys2Proof

/-- A command word: 16 bits, one format and no other length (R70). -/
abbrev Word := BitVec 16

/-- SEND's data operand and the `TXBYTE` latch: 8 bits unsigned (R25, R72). -/
abbrev Byte := BitVec 8

/-- The level of a line: L or H (R16, R36). -/
inductive Level where
  | low
  | high
  deriving DecidableEq, Repr, Inhabited

/-- One bit for every pin of the I/O port (`DIR`, `OUT`, `PUE`, `PCMSK` of R30–R33, and the level the environment
puts on each undriven pin, R37): bit p of `bits` is pin p's bit. A port has `P_N_PINS` pins, a parameter (R9), so
the width stands in no type; that no bit at or above `P_N_PINS` is ever set is a field of the invariant.
DESIGN CHOICE, safe (log 4). Reading and writing one pin is `PinSet.get` and `PinSet.put`, in Machine/Ops.lean. -/
structure PinSet where
  bits : Nat
  deriving DecidableEq, Repr, Inhabited

end Sys2Proof
end

