-- ==== Sys2Proof/Config.lean ====
section
/-! DEFINITION. The build-time parameters of a model instance (R9, R10), fixed for its life and never state (R178),
and the free inputs of a cycle (R13, R37). What the spec leaves to the build or to the environment is an opaque
constant here: nothing in Lean can evaluate it, so what is proved holds whatever it is. -/

namespace Sys2Proof

/-- `P_WIRING` (R9): one shared pin, or two dedicated pins. -/
inductive Wiring where
  | single
  | dual
  deriving DecidableEq, Repr, Inhabited

/-- The build-time parameters of R9, named as there. The values written here are only what Lean needs to know
that the type has a member; no machine uses them. -/
structure Params where
  /-- `P_WIRING` -/
  wiring : Wiring := .single
  /-- `P_RX_IRQ`, the interrupt-driven-receive enable -/
  rxIrq : Bool := false
  /-- `P_N_PINS`, the number of pins of the port -/
  nPins : Nat := 1
  /-- `P_TX_PIN`, the pin the frame is driven on -/
  txPin : Nat := 0
  /-- `P_RX_PIN`, the receive pin (the shared pin in SINGLE mode) -/
  rxPin : Nat := 0
  /-- `P_BIT_CYCLES` (B), clock cycles per bit-time -/
  bitCycles : Nat := 1
  /-- `P_SETUP_CYCLES` (S), cycles of pre-idle high before the start edge -/
  setupCycles : Nat := 1
  /-- `P_TEARDOWN_CYCLES` (T), cycles from the end of the stop bit until the engine is idle -/
  teardownCycles : Nat := 1
  /-- `P_F_CLK` in Hz: informative, no rule reads it (log 3) -/
  fClk : Rat := 1
  /-- `P_BAUD` in baud: informative, no rule reads it (log 3) -/
  baud : Rat := 1
  /-- `P_RST_DIR[p]`, one bit per pin (R30, R170) -/
  rstDir : BitVec nPins := 0
  /-- `P_RST_OUT[p]` (R31, R170) -/
  rstOut : BitVec nPins := 0
  /-- `P_RST_PUE[p]` (R32, R170) -/
  rstPue : BitVec nPins := 0
  /-- `P_RST_PCMSK[p]` (R33, R170) -/
  rstPcmsk : BitVec nPins := 0
  /-- `P_RST_PCIE` (R34, R170) -/
  rstPcie : Bool := false
  /-- `P_RST_GIE` (R35, R170) -/
  rstGie : Bool := false
  deriving DecidableEq, Repr

/-- A configuration is valid (R10): B, S, T at least 1; both pins on the port; SINGLE has one pin, DUAL has two.
The types of R9 add that the port has a pin and that clock and baud rate are positive. -/
abbrev Params.Valid (p : Params) : Prop :=
  (1 ≤ p.bitCycles ∧ 1 ≤ p.setupCycles ∧ 1 ≤ p.teardownCycles) ∧
  (p.txPin < p.nPins ∧ p.rxPin < p.nPins) ∧
  (p.wiring = .single → p.txPin = p.rxPin) ∧
  (p.wiring = .dual → p.txPin ≠ p.rxPin) ∧
  (1 ≤ p.nPins ∧ 0 < p.fClk ∧ 0 < p.baud)

/-- A configuration a machine is built for: parameters together with their validity, so that no invalid one can be
written down (R10: "A model refuses an invalid configuration: it builds no machine for it"). -/
structure Configuration where
  params : Params := {}
  valid : params.Valid := by decide
  deriving DecidableEq, Repr, Inhabited

/-- R10: the configuration of given parameters, or none when they are invalid. -/
def Configuration.build? (p : Params) : Option Configuration :=
  if h : p.Valid then some { params := p, valid := h } else none

/-- R2: the name of a configuration, `TTX8N1-<W><I>`. -/
def Params.name (p : Params) : String :=
  "TTX8N1-" ++ (match p.wiring with | .single => "S" | .dual => "D") ++ (if p.rxIrq then "I" else "-")

/-- R185: the length of a bit-time in seconds, `B / P_F_CLK`. -/
def Params.bitSeconds (p : Params) : Rat := p.bitCycles / p.fClk

/-- R185: the emitted bit rate in baud, `P_F_CLK / B`. -/
def Params.emittedBaud (p : Params) : Rat := p.fClk / p.bitCycles

/-- The free inputs of one cycle: of R37's `in_n`, all but the host's request (which the machine takes from the
host's program), and the value `draw()` gives in that cycle (R13: "a free input of the step with no law"). -/
structure EnvInput where
  /-- `rst`, the platform's reset (R170) -/
  rst : Bool
  /-- `stall`, an interrupt handler of the host CPU holds the execution context (R146) -/
  stall : Bool
  /-- `ext_level`, the level put on each undriven pin: a pin in the set is at H (R36) -/
  ext : PinSet
  /-- the value of `draw()` in this cycle (R110) -/
  draw : Bool
  deriving DecidableEq, Repr, Inhabited

/-- The configuration of this machine: any valid one (R9, R10). Log 1. -/
opaque Config.configuration : Configuration

/-- The free inputs of cycle n, for the cycles the state's `env` does not script: anything (R13, R37). Log 5. -/
opaque Config.envDraw : Nat → EnvInput

/-- The parameters of this machine. -/
abbrev Config.params : Params := Config.configuration.params

/-- The parameters of this machine are valid (R10). -/
theorem Config.params_valid : Config.params.Valid := Config.configuration.valid

end Sys2Proof
end

