-- ==== Sys2Proof/Syntax.lean ====
section
/-! DEFINITION. The commands of the block (R3, R70–R73), the host's requests (R37), the items of a host program
(R80) and the assembler's lines (R79). -/

namespace Sys2Proof

/-- The command set: the rows of spec/opcode_table.json. -/
inductive Instr where
  /-- INIT, the source's `initialize()`: no operand (R71, R90) -/
  | init
  /-- SEND, the source's `send(byte)`: the byte to send, taken as is (R71, R72, R101) -/
  | send (v : Byte)
  deriving DecidableEq, Repr, Inhabited

/-- Why a word is illegal (R73): its two kinds, each with the field that makes it so. -/
inductive Illegal where
  /-- `OPC` is neither 0x01 nor 0x02 -/
  | reservedOpcode (opc : Byte)
  /-- `OPC = 0x01` with `DATA ≠ 0x00` -/
  | initOperand (data : Byte)
  deriving DecidableEq, Repr

/-- What a command word decodes to (R74: "each word is INIT, SEND or illegal"). -/
inductive Decoded where
  | instr (i : Instr)
  | illegal (why : Illegal)
  deriving DecidableEq, Repr

/-- The host request of one cycle, `req` of R37. -/
inductive Request where
  | none
  | cmd (w : Word)
  | setGie (b : Bool)
  deriving DecidableEq, Repr, Inhabited

/-- One item of the host's program: a command word to present, or one of the two directives of R80. -/
inductive HostItem where
  | cmd (w : Word)
  /-- `SETGIE b` -/
  | setGie (b : Bool)
  /-- `WAIT n`: the host presents no request for n cycles -/
  | wait (n : Nat)
  deriving DecidableEq, Repr

/-- The ways R79 lets SEND's `imm8` be written. -/
inductive Imm where
  | dec (n : Nat)
  | hex (n : Nat)
  /-- a character literal, standing for its 7-bit ASCII code -/
  | chr (c : Char)
  deriving DecidableEq, Repr

/-- One line of a command program (R79, R80), and the test harness's raw `.word` (95_test_vectors.md, program P3).
The text of a line is not lexed: log 13. -/
inductive AsmLine where
  | init
  | send (imm : Imm)
  | setGie (b : Nat)
  | wait (n : Nat)
  | word (w : Nat)
  deriving DecidableEq, Repr

end Sys2Proof
end

