-- ==== Sys2Proof/Machine/State.lean ====
section
/-! DEFINITION. The state of the machine: the spec's `S` (R22–R35) as `Block`, and the environment's share of a run
(R14, R37, R80) beside it. Plain data throughout. -/

namespace Sys2Proof.Machine

/-- `PHASE` (R22): the position of the frame state machine. Six values; the encoding of R22 is `Phase.code`. -/
inductive Phase where
  | idle
  | setup
  | start
  | data
  | stop
  | teardown
  deriving DecidableEq, Repr, Inhabited

/-- A caller contract violation the model records in `FAULTS` (R141), with the value recorded beside the code.
It stops nothing: the machine goes on. -/
inductive ModelFault where
  /-- code 1: an accepted command word that decodes as illegal (R144) -/
  | illegalCommand (w : Word)
  /-- code 2: SEND accepted while `INIT_DONE = 0` (R142) -/
  | notInitialized (v : Byte)
  /-- code 3: INIT accepted while `INIT_DONE = 1` (R143) -/
  | initRepeated
  deriving DecidableEq, Repr

/-- The spec's state `S`: the engine's own (R22–R29) and the platform registers the block writes (R30–R35). -/
structure Block where
  /-- `PHASE` (R22) -/
  phase : Phase
  /-- `CYC`, the cycle counter within the phase, a natural number (R23) -/
  cyc : Nat
  /-- `BITIDX`, the 3-bit data-bit counter (R24) -/
  bitIdx : Fin 8
  /-- `TXBYTE`, the byte being sent (R25) -/
  txByte : Byte
  /-- `CS`, the critical-section flag (R26) -/
  cs : Bool
  /-- `SAVED_GIE`, the copy of `GIE` taken at SEND acceptance (R27) -/
  savedGie : Bool
  /-- `INIT_DONE` (R28) -/
  initDone : Bool
  /-- `FAULTS`, the sticky set of model faults (R29, R141), in the canonical form of `FaultsSorted` (log 8) -/
  faults : List ModelFault
  /-- `DIR`: 1 is output (R30) -/
  dir : PinSet
  /-- `OUT`: 1 is high (R31) -/
  out : PinSet
  /-- `PUE`: 1 enables the pull-up (R32) -/
  pue : PinSet
  /-- `PCMSK`: 1 unmasks (R33) -/
  pcmsk : PinSet
  /-- `PCIE`, the global pin-change interrupt enable (R34) -/
  pcie : Bool
  /-- `GIE`, the host CPU's global interrupt enable, the block's only flag (R35) -/
  gie : Bool
  deriving DecidableEq, Repr

/-- The whole machine: the block, and what the environment has still to do. -/
structure State where
  /-- the spec's `S_n` -/
  block : Block
  /-- the number n of this cycle (R14); it indexes the free inputs (log 5) -/
  cycle : Nat
  /-- what the host has still to present, first item first (R80, R186; log 6) -/
  program : List HostItem
  /-- the scripted free inputs, this cycle's first; past the end of the list they are `Config.envDraw` (log 5) -/
  env : List EnvInput
  deriving DecidableEq, Repr

/-- Why a step could end in a fault: there is no reason. "The block raises no hardware exception, trap or error
signal" (R140) and "the step is total" (R100), so no step of this machine faults, and the type is empty. The model
faults of R141 stop nothing; they are recorded in `Block.faults`. -/
inductive Fault where
  deriving DecidableEq, Repr

/-- Why a step could be refused. -/
inductive Refusal where
  /-- raised by an arm of `exec` whose instruction has no meaning yet, naming it: safe. No arm raises it now. -/
  | notModelled (mnemonic : String)
  deriving DecidableEq, Repr

/-- R170's column of values after reset, for given parameters, with `FAULTS` empty as at launch (R172). -/
def Block.reset (p : Params) : Block where
  phase := .idle
  cyc := 0
  bitIdx := 0
  txByte := 0x00#8
  cs := false
  savedGie := false
  initDone := false
  faults := []
  dir := ⟨p.rstDir.toNat⟩
  out := ⟨p.rstOut.toNat⟩
  pue := ⟨p.rstPue.toNat⟩
  pcmsk := ⟨p.rstPcmsk.toNat⟩
  pcie := p.rstPcie
  gie := p.rstGie

/-- The machine of a configuration right after reset: cycle 0, no program, nothing scripted (R172; log 9). -/
def State.resetAt (c : Configuration) : State where
  block := Block.reset c.params
  cycle := 0
  program := []
  env := []

/-- The machine right after reset (R172): `S_0`, whose platform registers hold the parameters `P_RST_*` (log 2). -/
def State.reset : State := State.resetAt Config.configuration

end Sys2Proof.Machine
end

