-- ==== Sys2Proof/Machine/Ops.lean ====
section
/-! DEFINITION. The named operations over the state that the meanings and the step are written from: one pin's bit,
recording a model fault, the environment's inputs and the host's program, the derived outputs, the stall, the
reset event. The block takes no trap and returns from none (R150, R151), so recording a model fault is all that
stands in the place of taking an exception. -/

namespace Sys2Proof

/-- `X[p]`, the bit of per-pin register X for pin p (R13). -/
def PinSet.get (r : PinSet) (p : Nat) : Bool := r.bits.testBit p

/-- `X[p] <- b`: pin p's bit becomes b and no other bit changes (R13, R54). -/
def PinSet.put (r : PinSet) (p : Nat) (b : Bool) : PinSet :=
  if r.get p = b then r else ⟨r.bits ^^^ 2 ^ p⟩

end Sys2Proof

namespace Sys2Proof.Machine

/-! ### Phases -/

/-- R22's encoding of `PHASE`, for state dumps. -/
def Phase.code : Phase → BitVec 3
  | .idle => 0
  | .setup => 1
  | .start => 2
  | .data => 3
  | .stop => 4
  | .teardown => 5

/-- R103: the length of a phase in unstalled cycles (B for each of the 8 data bits). IDLE has none, written 0. -/
def phaseLen (p : Params) : Phase → Nat
  | .idle => 0
  | .setup => p.setupCycles
  | .start => p.bitCycles
  | .data => p.bitCycles
  | .stop => p.bitCycles
  | .teardown => p.teardownCycles

/-! ### Model faults (R141) -/

/-- R141's code of a model fault. -/
def ModelFault.code : ModelFault → Nat
  | .illegalCommand _ => 1
  | .notInitialized _ => 2
  | .initRepeated => 3

/-- R141's recorded value. -/
def ModelFault.value : ModelFault → Nat
  | .illegalCommand w => w.toNat
  | .notInitialized v => v.toNat
  | .initRepeated => 0

/-- The order in which `FAULTS` is kept: by code, then by recorded value (log 8). -/
def ModelFault.key (f : ModelFault) : Nat := f.code * 2 ^ 16 + f.value

/-- The canonical form of `FAULTS`: keys strictly rising, so that equal sets are equal lists (log 8). -/
abbrev FaultsSorted (fs : List ModelFault) : Prop := fs.Pairwise fun f g => f.key < g.key

/-- A fault added to a set of faults; nothing is ever removed (R141). -/
def insertFault (f : ModelFault) : List ModelFault → List ModelFault
  | [] => [f]
  | g :: gs =>
    if f.key < g.key then f :: g :: gs
    else if f.key = g.key then g :: gs
    else g :: insertFault f gs

/-- `raise Fault(code)` (R13): the fault is recorded and nothing else happens. -/
def Block.raise (b : Block) (f : ModelFault) : Block := { b with faults := insertFault f b.faults }

/-! ### Derived outputs (R36, R38) -/

/-- What the block does to a pin: `Z` (not driven), or it drives the pin at a level (R16). -/
inductive Drive where
  | z
  | level (v : Level)
  deriving DecidableEq, Repr

/-- The level a bit stands for: 1 is high, 0 is low, not inverted (R31, R77). -/
def levelOf (b : Bool) : Level := if b then .high else .low

/-- R36: the drive of a pin. -/
def Block.drive (b : Block) (pin : Nat) : Drive :=
  if b.dir.get pin then .level (levelOf (b.out.get pin)) else .z

/-- R38: `BUSY`. -/
def Block.busy (b : Block) : Bool := b.phase != .idle

/-- R146: the effective stall of a block under the input `stall`. -/
def Block.stallEff (b : Block) (stall : Bool) : Bool := stall && b.gie && !b.cs

/-- R145: the three enables under which the RX pin's pin-change interrupt reaches the host CPU. -/
def Block.rxInterruptEnabled (p : Params) (b : Block) : Bool := b.pcmsk.get p.rxPin && b.pcie && b.gie

/-! ### The environment's inputs (R37) -/

/-- The free inputs of the cycle n cycles ahead of this one (log 5). -/
def State.inputAt (s : State) (n : Nat) : EnvInput :=
  match s.env[n]? with
  | some e => e
  | none => Config.envDraw (s.cycle + n)

/-- The free inputs of this cycle. -/
def State.now (s : State) : EnvInput :=
  match s.env with
  | [] => Config.envDraw s.cycle
  | e :: _ => e

/-- R146: this cycle is an effective stall cycle. -/
def State.stalled (s : State) : Bool := s.block.stallEff s.now.stall

/-- R38: `CMD_READY`. -/
def State.cmdReady (s : State) : Bool := !s.block.busy && !s.stalled

/-- R38: a request is accepted in this cycle exactly when `CMD_READY` holds and there is no reset. -/
def State.accepting (s : State) : Bool := s.cmdReady && !s.now.rst

/-- R36: the line level of a pin: what the block drives, else what the environment puts there. -/
def State.line (s : State) (pin : Nat) : Level :=
  match s.block.drive pin with
  | .level v => v
  | .z => levelOf (s.now.ext.get pin)

/-- One element of R38's observable trace. -/
structure Sample where
  drive : Drive
  line : Level
  gie : Bool
  busy : Bool
  deriving DecidableEq, Repr

/-- R38: what a run shows in this cycle, for a given TX pin. -/
def State.sample (s : State) (tx : Nat) : Sample where
  drive := s.block.drive tx
  line := s.line tx
  gie := s.block.gie
  busy := s.block.busy

/-! ### The host's program (R80; log 6) -/

/-- The request the host presents this cycle: its next item, unless it is waiting. -/
def present : List HostItem → Request
  | [] => .none
  | .wait 0 :: rest => present rest
  | .wait (_ + 1) :: _ => .none
  | .cmd w :: _ => .cmd w
  | .setGie b :: _ => .setGie b

/-- The program after a cycle in which no request was accepted: a WAIT has one cycle less to go, a request is held
and presented again (R37, R80). -/
def keepProgram : List HostItem → List HostItem
  | .wait 0 :: rest => keepProgram rest
  | .wait (n + 1) :: rest => if n = 0 then rest else .wait n :: rest
  | items => items

/-- The program after a cycle in which the presented request was accepted. -/
def serveProgram : List HostItem → List HostItem
  | .wait 0 :: rest => serveProgram rest
  | .cmd _ :: rest => rest
  | .setGie _ :: rest => rest
  | items => items

/-- No item is left to present (R186). The spec does not say whether a WAIT, which presents no request, is left to
present: here it is while it has a cycle to go, so a program that ends in WAIT n is exhausted n cycles later, and at
once for WAIT 0. DESIGN CHOICE (log 18). -/
def exhausted : List HostItem → Bool
  | [] => true
  | .wait 0 :: rest => exhausted rest
  | _ => false

/-- The host request of this cycle, `req` of R37. -/
def State.request (s : State) : Request := present s.program

/-- The edge ending a cycle in which no request was accepted, for everything outside the block. -/
def State.hold (s : State) : State :=
  { s with cycle := s.cycle + 1, program := keepProgram s.program, env := s.env.tail }

/-- The edge ending a cycle in which the request was accepted, for everything outside the block. -/
def State.serve (s : State) : State :=
  { s with cycle := s.cycle + 1, program := serveProgram s.program, env := s.env.tail }

/-- A change of the block alone. -/
def State.mapBlock (s : State) (f : Block → Block) : State := { s with block := f s.block }

/-! ### Reset (R170) -/

/-- R170: the block after a reset event. Every field takes its value after reset but `FAULTS`, which is kept. -/
def resetBlock (p : Params) (b : Block) : Block := { Block.reset p with faults := b.faults }

end Sys2Proof.Machine
end

