-- ==== Sys2Proof/Machine/Flags.lean ====
section
/-! DEFINITION. The block's only flag, `GIE` (R35), with `CS` and `SAVED_GIE` that go with it: the host's write,
entering the critical section, leaving it. No condition codes exist (R44). -/

namespace Sys2Proof.Machine

/-- R110: the restored interrupt enable. Restoring 1 gives 1; restoring 0 gives `draw()`, the cycle's free value. -/
def restoreGie (saved draw : Bool) : Bool := if saved then true else draw

/-- R104: interrupts are disabled and the critical section begins. -/
def Block.enterCritical (b : Block) : Block := { b with gie := false, cs := true }

/-- R109: the critical section ends and the interrupt enable is restored. -/
def Block.leaveCritical (draw : Bool) (b : Block) : Block :=
  { b with cs := false, gie := restoreGie b.savedGie draw }

/-- R113: SETGIE(g), the host writes the global interrupt enable. -/
def Block.setGie (g : Bool) (b : Block) : Block := { b with gie := g }

end Sys2Proof.Machine
end

