-- ==== Sys2Proof/Machine/Operands.lean ====
section
/-! DEFINITION. The one data operation of the block, selecting a bit of `TXBYTE` (R119), and the serial frame F10 the
operand of SEND becomes on the wire (R76–R78). -/

namespace Sys2Proof.Machine

/-- `TXBYTE[i]` (R105, R106, R119). -/
def dataBit (v : Byte) (i : Nat) : Bool := v.getLsbD i

/-- R76: the bit held in slot k of the frame of v: the start bit, the data bits with position 0 first, the stop bit. -/
def slotBit (v : Byte) (k : Nat) : Bool :=
  if k = 0 then false else if k ≤ 8 then dataBit v (k - 1) else true

/-- R76: the level of slot k of the frame of v. -/
def slotLevel (v : Byte) (k : Nat) : Level := levelOf (slotBit v k)

/-- R78: the frame as a 10-bit word, `{1, v[7:0], 0}`, its bit 0 first in time. -/
def frameWord (v : Byte) : BitVec 10 := 1#1 ++ v ++ 0#1

/-- R22's column "line drive on the TX pin": the output bit the block keeps in each busy phase. -/
def phaseBit (b : Block) : Bool :=
  match b.phase with
  | .start => false
  | .data => dataBit b.txByte b.bitIdx.val
  | _ => true

end Sys2Proof.Machine
end

