-- ==== Sys2Proof/Machine/FrameTransmitter.lean ====
section
/-! DEFINITION. The Frame Transmitter: SEND (R101) and the phase rules of the frame state machine (R102–R111). All the
writes of one rule land together (R13, R55). -/

namespace Sys2Proof.Machine

/-- `OUT[tx] <- level` for the TX pin. -/
def Block.driveTx (p : Params) (level : Bool) (b : Block) : Block := { b with out := b.out.put p.txPin level }

/-- R101: SEND v. The byte is latched, `GIE` is copied, the TX pin is driven high, and SETUP begins. Before INIT the
SEND is recorded and runs all the same (R142). -/
def sendBlock (p : Params) (v : Byte) (b : Block) : Block :=
  let b := if b.initDone then b else b.raise (.notInitialized v)
  { b.driveTx p true with
    txByte := v, savedGie := b.gie, dir := b.dir.put p.txPin true, phase := .setup, cyc := 0, bitIdx := 0 }

/-- The meaning of SEND (R101) on this machine. -/
def execSend (v : Byte) (s : State) : Host.Outcome State Fault Refusal :=
  .next (s.mapBlock (sendBlock Config.params v))

/-- R104, end of SETUP: the start edge and entry to the critical section. -/
def startEdge (p : Params) (b : Block) : Block :=
  { (b.driveTx p false).enterCritical with phase := .start, cyc := 0 }

/-- R105, end of START: the first data bit. -/
def firstDataBit (p : Params) (b : Block) : Block :=
  { b.driveTx p (dataBit b.txByte 0) with phase := .data, bitIdx := 0, cyc := 0 }

/-- R106, end of a data bit other than the last. -/
def nextDataBit (p : Params) (b : Block) : Block :=
  { b.driveTx p (dataBit b.txByte (b.bitIdx.val + 1)) with bitIdx := b.bitIdx + 1, cyc := 0 }

/-- R107, end of the last data bit: the stop bit begins. -/
def stopEdge (p : Params) (b : Block) : Block :=
  { b.driveTx p true with phase := .stop, bitIdx := 0, cyc := 0 }

/-- R109, end of STOP: exit from the critical section. `OUT[tx]` stays 1. -/
def endStop (draw : Bool) (b : Block) : Block :=
  { b.leaveCritical draw with phase := .teardown, cyc := 0 }

/-- R111's release of the shared pin in SINGLE mode; in DUAL mode the TX pin stays output at high. -/
def releaseTx (p : Params) (b : Block) : Block :=
  match p.wiring with
  | .single => { b with dir := b.dir.put p.txPin false, pue := b.pue.put p.txPin false }
  | .dual => b

/-- R111, end of TEARDOWN: return to IDLE with no residue. -/
def endTeardown (p : Params) (b : Block) : Block :=
  { releaseTx p b with phase := .idle, cyc := 0, bitIdx := 0, txByte := 0x00#8, savedGie := false }

/-- The end of the phase the block is in (R100's case over PHASE). -/
def phaseEnd (p : Params) (draw : Bool) (b : Block) : Block :=
  match b.phase with
  | .idle => b
  | .setup => startEdge p b
  | .start => firstDataBit p b
  | .data => if b.bitIdx.val < 7 then nextDataBit p b else stopEdge p b
  | .stop => endStop draw b
  | .teardown => endTeardown p b

/-- One unstalled cycle of a busy block (R100): within a phase only `CYC` counts (R102), else the phase ends. -/
def advance (p : Params) (draw : Bool) (b : Block) : Block :=
  if b.cyc < phaseLen p b.phase - 1 then { b with cyc := b.cyc + 1 } else phaseEnd p draw b

end Sys2Proof.Machine
end

