-- ==== Sys2Proof/Machine/PinConfigurator.lean ====
section
/-! DEFINITION. The Pin Configurator: INIT (R90–R96). -/

namespace Sys2Proof.Machine

/-- R90's pin writes: the RX pin becomes an input without pull-up, and in DUAL mode the TX pin an output at high. -/
def initPins (p : Params) (b : Block) : Block :=
  let b := { b with dir := b.dir.put p.rxPin false, pue := b.pue.put p.rxPin false }
  match p.wiring with
  | .single => b
  | .dual => { b with dir := b.dir.put p.txPin true, out := b.out.put p.txPin true }

/-- R90's interrupt writes: with the receive hook, the RX pin's mask and the pin-change enable are set. -/
def initHook (p : Params) (b : Block) : Block :=
  if p.rxIrq then { b with pcmsk := b.pcmsk.put p.rxPin true, pcie := true } else b

/-- R90: INIT as a whole. `GIE` and the frame state machine are left alone (R91, R93). A repeated INIT makes its
writes again and is recorded (R143). -/
def initBlock (p : Params) (b : Block) : Block :=
  let b := if b.initDone then b.raise .initRepeated else b
  { initHook p (initPins p b) with initDone := true }

/-- The meaning of INIT (R90) on this machine. -/
def execInit (s : State) : Host.Outcome State Fault Refusal :=
  .next (s.mapBlock (initBlock Config.params))

end Sys2Proof.Machine
end

