-- ==== Sys2Proof/WellFormed.lean ====
section
/-! DEFINITION. Well-formedness. SEND's operand is a `Byte`, so every `Instr` is well-formed as it stands (R72); what
can be ill-formed is what a programmer writes: the assembler refuses a value outside 0..255 (R79). -/

namespace Sys2Proof

/-- Every command is well-formed: INIT has no operand and every byte is an operand of SEND (R72). -/
def Instr.wf : Instr → Bool
  | .init => true
  | .send _ => true

/-- The number an immediate stands for (R79). -/
def Imm.value : Imm → Nat
  | .dec n => n
  | .hex n => n
  | .chr c => c.toNat

/-- R79: a number 0..255, or a character with a 7-bit ASCII code. -/
def Imm.wf : Imm → Bool
  | .dec n => decide (n ≤ 255)
  | .hex n => decide (n ≤ 0xFF)
  | .chr c => decide (c.toNat < 128)

/-- R79, R80: what the assembler accepts. -/
def AsmLine.wf : AsmLine → Bool
  | .init => true
  | .send imm => imm.wf
  | .setGie b => decide (b ≤ 1)
  | .wait _ => true
  | .word w => decide (w < 2 ^ 16)

end Sys2Proof
end

