-- ==== Sys2Proof/Decode.lean ====
section
/-! DEFINITION. Decoding of command words (R70–R75), the encoder, the opcode table, and the assembler (R79, R80). -/

namespace Sys2Proof

/-- `OPC`, bits 15:8 of a command word (R70). -/
def opcode (w : Word) : Byte := w.extractLsb' 8 8

/-- `DATA`, bits 7:0 of a command word (R70, R72). -/
def operand (w : Word) : Byte := w.extractLsb' 0 8

/-- R74: a decoder reads `OPC` and then, for `OPC = 0x01`, checks `DATA`. Total on all words. -/
def decode (w : Word) : Decoded :=
  if opcode w = 0x01#8 then
    if operand w = 0x00#8 then .instr .init else .illegal (.initOperand (operand w))
  else if opcode w = 0x02#8 then .instr (.send (operand w))
  else .illegal (.reservedOpcode (opcode w))

/-- R71, R79: INIT is 0x0100, SEND v is `0x0200 | v`. -/
def encode : Instr → Word
  | .init => 0x0100#16
  | .send v => 0x0200#16 ||| v.setWidth 16

/-- One row of spec/opcode_table.json: a word w is the row's exactly when `w & mask = match` (R71). -/
structure OpcodeRow where
  mnemonic : String
  word : Word
  mask : Word
  deriving DecidableEq, Repr

/-- spec/opcode_table.json, row by row. -/
def opcodeTable : List OpcodeRow :=
  [{ mnemonic := "INIT", word := 0x0100#16, mask := 0xFFFF#16 },
   { mnemonic := "SEND", word := 0x0200#16, mask := 0xFF00#16 }]

/-- The row a word belongs to, if any. -/
def rowOf (w : Word) : Option OpcodeRow :=
  opcodeTable.find? fun r => w &&& r.mask == r.word

/-- The command word of an instruction given as the opcode table numbers it: the low `nbits` bits of `w`, every bit
above them 0. One word of 16 bits, presented whole, so no byte order applies (R52, R74). -/
def tableWord (nbits w : Nat) : Word := BitVec.ofNat 16 (w % 2 ^ nbits)

/-- The instruction the decoder reads from an instruction of the opcode table's numbering; none where it is refused
or where more than the 16 bits of the only format are asked for (R74). -/
def decodeTableWord (nbits w : Nat) : Option Instr :=
  if nbits ≤ 16 then
    match decode (tableWord nbits w) with
    | .instr i => some i
    | .illegal _ => none
  else none

/-- R79, R80: the program item of an assembly line, or none where the assembler refuses it. -/
def assemble (l : AsmLine) : Option HostItem :=
  if l.wf then
    match l with
    | .init => some (.cmd (encode .init))
    | .send imm => some (.cmd (encode (.send (BitVec.ofNat 8 imm.value))))
    | .setGie b => some (.setGie (b == 1))
    | .wait n => some (.wait n)
    | .word w => some (.cmd (BitVec.ofNat 16 w))
  else none

/-! Each constructor's decoding, by a word written out from the spec's encoding of it (R71; vectors 2.1 of
95_test_vectors.md). -/

theorem decode_init_word : decode 0b0000000100000000#16 = .instr .init := by decide

theorem decode_send_word : decode 0b0000001001010101#16 = .instr (.send 0x55#8) := by decide

end Sys2Proof
end

