-- ==== Sys2Proof/Machine/Engine.lean ====
section
/-! DEFINITION. The step of the engine (R100) over a way to run a decoded command; and the machine of any configuration
(R9: "The model takes the following build-time parameters as arguments"), of which the machine of Machine/Step.lean is
the one at `Config.configuration`. Every machine is built from a `Configuration`, which holds the validity of its
parameters, so there is none for invalid ones (R10). -/

namespace Sys2Proof.Machine

/-- R170, R171: the edge ending a cycle with `rst = 1`. Whatever the phase, stall or request, the block is reset; the
request is not accepted (R38) and the run goes on. -/
def State.afterReset (p : Params) (s : State) : State := s.hold.mapBlock (resetBlock p)

/-- An idle, unstalled cycle: the request the host presents is accepted (R100, R112, R113, R144). A command that
decodes is run by `run`, on the state in which it has left the host's program. -/
def serveRequest (run : Instr → State → Host.Outcome State Fault Refusal) (s : State) :
    Host.Outcome State Fault Refusal :=
  match s.request with
  | .none => .next s.hold
  | .setGie g => .next (s.serve.mapBlock (Block.setGie g))
  | .cmd w =>
    match decode w with
    | .instr i => run i s.serve
    | .illegal _ => .next (s.serve.mapBlock fun b => b.raise (.illegalCommand w))

/-- R100: one clock cycle, in R149's order: the reset; an effective stall, which holds the state and any request; in
IDLE the request; in a busy phase the phase step, under which a request is held (R117). -/
def cycleWith (c : Configuration) (run : Instr → State → Host.Outcome State Fault Refusal) (s : State) :
    Host.Outcome State Fault Refusal :=
  if s.now.rst then .next (s.afterReset c.params)
  else if s.stalled then .next s.hold
  else if s.block.busy then .next (s.hold.mapBlock (advance c.params s.now.draw))
  else serveRequest run s

/-- The effect of a command on the block under parameters p (R90, R101). -/
def commandBlock (p : Params) : Instr → Block → Block
  | .init => initBlock p
  | .send v => sendBlock p v

/-- Running a command on the machine of a configuration. -/
def execAt (c : Configuration) (i : Instr) (s : State) : Host.Outcome State Fault Refusal :=
  .next (s.mapBlock (commandBlock c.params i))

/-- The step of the machine of a configuration. -/
def stepAt (c : Configuration) (s : State) : Host.Outcome State Fault Refusal := cycleWith c (execAt c) s

/-- The machine of a configuration. -/
def coreAt (c : Configuration) : Host.Core where
  State := State
  Fault := Fault
  Refusal := Refusal
  step := stepAt c
  reset := State.resetAt c

/-- R10: the machine of given parameters. Valid parameters have the machine of their configuration; for invalid ones
no machine is built. -/
def machine? (p : Params) : Option Host.Core := (Configuration.build? p).map coreAt

end Sys2Proof.Machine
end

