-- ==== Sys2Proof/Machine/Step.lean ====
section
/-! DEFINITION. The step of this machine, and where the next command is fetched from: the head of the host's program
(R37, R62, R80). -/

namespace Sys2Proof.Machine

/-- One clock cycle of this machine (R100): the step at `Config.configuration`, running commands by `exec`. -/
def step (s : State) : Host.Outcome State Fault Refusal := cycleWith Config.configuration exec s

/-- s with a command word presented in this cycle, so that the very next step accepts and runs it (log 9): the word
heads the host's program, the engine is in IDLE, and this cycle has neither a reset nor a stall. -/
def State.withFetchWord (s : State) (nbits w : Nat) : State :=
  { s with
    block := { s.block with phase := .idle }
    program := .cmd (tableWord nbits w) :: s.program
    env := { s.now with rst := false, stall := false } :: s.env.tail }

end Sys2Proof.Machine
end

