-- ==== Sys2Proof/Safety.lean ====
section
/-! DEFINITION. What claims are stated in: runs and their premises, counting stalls, the invariant of the block, the
idle configuration, the end of a run, the reference decoder, and states that differ only in the byte being sent. -/

namespace Sys2Proof.Machine

/-! ### Runs -/

/-- n cycles of the machine of a configuration (R14). -/
def runAt (c : Configuration) (n : Nat) (s : State) : Host.Outcome State Fault Refusal := (coreAt c).run n s

/-- No reset in the next n cycles (R170: `rst = 1` is the only event that ends a frame early, R120). -/
def NoReset (n : Nat) (s : State) : Prop := ∀ i, i < n → (s.inputAt i).rst = false

/-- How many of the next n cycles are effective stall cycles (R146): the σ and τ of R108 and R114. -/
def stallsIn (c : Configuration) : Nat → State → Nat
  | 0, _ => 0
  | n + 1, s =>
    (if s.stalled then 1 else 0) +
      match stepAt c s with
      | .next t => stallsIn c n t
      | .fault _ => 0
      | .refused _ => 0

/-- R147: every maximal run of consecutive effective stall cycles is finite, as interrupt handlers return. A premise
of claims that a SEND ends. -/
def FairStalls (c : Configuration) (s : State) : Prop :=
  ∀ n, ∃ m t, runAt c (n + m) s = .next t ∧ t.stalled = false

/-- The states of this machine's runs (R172): a run starts at reset with any program and any environment. -/
inductive Reachable : State → Prop where
  | launch (program : List HostItem) (env : List EnvInput) :
      Reachable { State.reset with program := program, env := env }
  | step {s t : State} (h : Reachable s) (hs : Machine.step s = .next t) : Reachable t

/-- A cycle in which the block takes the branch of R100 that its phase selects: no reset, no effective stall. -/
def State.Live (s : State) : Prop := s.now.rst = false ∧ s.stalled = false

/-- R186: the end of a run. The engine is idle, no model fault is recorded, nothing is left to present
(a closing WAIT is, while it counts: log 18), no reset. -/
def State.Final (s : State) : Prop :=
  s.block.phase = .idle ∧ s.block.faults = [] ∧ exhausted s.program = true ∧ s.now.rst = false

/-! ### The invariant of the block -/

/-- What holds of every block a run reaches, and is kept by every step. -/
structure Block.Inv (p : Params) (b : Block) : Prop where
  /-- R42: in IDLE there is no residue -/
  idle_clear : b.phase = .idle → b.cyc = 0 ∧ b.txByte = 0x00#8 ∧ b.savedGie = false
  /-- R23, R119: the cycle counter stays inside its phase -/
  cyc_lt : b.phase ≠ .idle → b.cyc < phaseLen p b.phase
  /-- R24: the data-bit counter is 0 outside DATA -/
  bitIdx_zero : b.phase ≠ .data → b.bitIdx = 0
  /-- R41: the critical section is START, DATA and STOP -/
  cs_iff : b.cs = true ↔ b.phase = .start ∨ b.phase = .data ∨ b.phase = .stop
  /-- R41: interrupts are off in the critical section -/
  cs_gie : b.cs = true → b.gie = false
  /-- R22: in every busy phase the TX pin is driven at the phase's level -/
  tx_driven : b.phase ≠ .idle → b.dir.get p.txPin = true ∧ b.out.get p.txPin = phaseBit b
  /-- R42: after INIT the RX pin has no pull-up -/
  rx_pull : b.initDone = true → b.pue.get p.rxPin = false
  /-- R42: after INIT the RX pin is an input, unless it is the shared pin of a frame in progress -/
  rx_input : b.initDone = true → p.wiring = .dual ∨ b.phase = .idle → b.dir.get p.rxPin = false
  /-- R42: after INIT in DUAL mode the TX pin is an output, high while idle -/
  tx_high : b.initDone = true → p.wiring = .dual →
    b.dir.get p.txPin = true ∧ (b.phase = .idle → b.out.get p.txPin = true)
  /-- R42: after INIT with the receive hook the pin-change interrupt of the RX pin stays enabled -/
  rx_hook : b.initDone = true → p.rxIrq = true → b.pcmsk.get p.rxPin = true ∧ b.pcie = true
  /-- R9: the per-pin registers hold one bit for each pin of the port and nothing else (log 4) -/
  ports : b.dir.bits < 2 ^ p.nPins ∧ b.out.bits < 2 ^ p.nPins ∧ b.pue.bits < 2 ^ p.nPins ∧
    b.pcmsk.bits < 2 ^ p.nPins
  /-- R29: `FAULTS` is a set, in its canonical form (log 8) -/
  faults_sorted : FaultsSorted b.faults

/-- R42: the idle configuration of the pins, one clause a line of the rule. -/
structure Block.IdleConfig (p : Params) (b : Block) : Prop where
  clear : b.cyc = 0 ∧ b.bitIdx = 0 ∧ b.txByte = 0x00#8 ∧ b.cs = false
  rx_input : b.dir.get p.rxPin = false
  dual : p.wiring = .dual →
    b.dir.get p.txPin = true ∧ b.out.get p.txPin = true ∧ b.drive p.txPin = .level .high ∧
      b.pue.get p.rxPin = false
  single : p.wiring = .single → b.dir.get p.txPin = false ∧ b.pue.get p.txPin = false ∧ b.drive p.txPin = .z
  hook : p.rxIrq = true → b.pcmsk.get p.rxPin = true ∧ b.pcie = true

/-! ### Frames -/

/-- Unstalled cycles until the engine is idle again (R103, R114). -/
def remaining (p : Params) (b : Block) : Nat :=
  match b.phase with
  | .idle => 0
  | .setup => (p.setupCycles - b.cyc) + 10 * p.bitCycles + p.teardownCycles
  | .start => (p.bitCycles - b.cyc) + 9 * p.bitCycles + p.teardownCycles
  | .data => (p.bitCycles - b.cyc) + (8 - b.bitIdx.val) * p.bitCycles + p.teardownCycles
  | .stop => (p.bitCycles - b.cyc) + p.teardownCycles
  | .teardown => p.teardownCycles - b.cyc

/-- The reference decoder of R115: it is given the level sampled in each slot, and answers the byte if the start
sample is low and the stop sample high. -/
def refDecode (sample : Nat → Level) : Option Byte :=
  if sample 0 = .low ∧ sample 9 = .high then
    some ((List.range 8).foldl (fun v k => if sample (k + 1) = .high then v ||| 1#8 <<< k else v) 0#8)
  else none

/-- The line level of a pin n cycles ahead (R36), the wire as a receiver samples it. -/
def lineAfter (c : Configuration) (n : Nat) (s : State) (pin : Nat) : Level :=
  match runAt c n s with
  | .next t => t.line pin
  | .fault _ => .low
  | .refused _ => .low

/-! ### Data independence (R43, R116) -/

/-- Two program items that differ at most in the byte a SEND sends. -/
def HostItem.SameButByte (x y : HostItem) : Prop :=
  x = y ∨ ∃ v w : Byte, x = .cmd (encode (.send v)) ∧ y = .cmd (encode (.send w))

/-- Two blocks that differ at most in the byte being sent: its latch, the TX pin's output bit during DATA, and the
value recorded beside a model fault. -/
structure Block.SameButByte (p : Params) (a b : Block) : Prop where
  phase : a.phase = b.phase
  cyc : a.cyc = b.cyc
  bitIdx : a.bitIdx = b.bitIdx
  cs : a.cs = b.cs
  savedGie : a.savedGie = b.savedGie
  initDone : a.initDone = b.initDone
  dir : a.dir = b.dir
  pue : a.pue = b.pue
  pcmsk : a.pcmsk = b.pcmsk
  pcie : a.pcie = b.pcie
  gie : a.gie = b.gie
  out : ∀ pin, (pin = p.txPin ∧ a.phase = .data) ∨ a.out.get pin = b.out.get pin

/-- Two states that differ at most in the bytes being sent and still to be sent. -/
structure State.SameButByte (p : Params) (s t : State) : Prop where
  block : s.block.SameButByte p t.block
  cycle : s.cycle = t.cycle
  program : List.Forall₂ HostItem.SameButByte s.program t.program
  env : s.env = t.env

end Sys2Proof.Machine
end

