-- ==== Sys2Proof/Certificates/Slice0/Obligations.lean ====
section
/-! DEFINITION. The statements for the provers, from the numbered rules of spec/. Those about `step` and `exec` are about
this machine, whose configuration `Config.configuration` is any; those about `runAt c` and `stepAt c` are about the machine
of every configuration c, that is of every valid choice of parameters. -/

open Sys2Proof Sys2Proof.Machine

/-! ## Encodings -/

/-- The command-decode vectors of 95_test_vectors.md, 2.1 (R70–R75). A sanity statement about ten words. -/
def Obligations.DecodeVectors : Prop :=
  decode 0x0100#16 = .instr .init ∧
  decode 0x0101#16 = .illegal (.initOperand 0x01#8) ∧
  decode 0x01FF#16 = .illegal (.initOperand 0xFF#8) ∧
  decode 0x0000#16 = .illegal (.reservedOpcode 0x00#8) ∧
  decode 0x0200#16 = .instr (.send 0x00#8) ∧
  decode 0x0255#16 = .instr (.send 0x55#8) ∧
  decode 0x02FF#16 = .instr (.send 0xFF#8) ∧
  decode 0x0300#16 = .illegal (.reservedOpcode 0x03#8) ∧
  decode 0x1002#16 = .illegal (.reservedOpcode 0x10#8) ∧
  decode 0xFFFF#16 = .illegal (.reservedOpcode 0xFF#8)

/-- R75: decoding, total over all words, by the two bytes of the word read as numbers. -/
def Obligations.DecodeByItsBytes : Prop :=
  ∀ w : Word,
    (decode w = .instr .init ↔ w.toNat / 256 = 1 ∧ w.toNat % 256 = 0) ∧
    (∀ v : Byte, decode w = .instr (.send v) ↔ w.toNat / 256 = 2 ∧ w.toNat % 256 = v.toNat) ∧
    ((∃ why, decode w = .illegal why) ↔
      ¬(w.toNat / 256 = 1 ∧ w.toNat % 256 = 0) ∧ w.toNat / 256 ≠ 2)

/-- The headline of the encodings: the decoder and the encoder are inverse to each other on all commands, with every
operand (R71, R72, R75). -/
def Obligations.DecodeEncodeRoundTrip : Prop :=
  (∀ i : Instr, i.wf = true → decode (encode i) = .instr i) ∧
  (∀ (w : Word) (i : Instr), decode w = .instr i → encode i = w)

/-- The decoder and the mask and match columns of spec/opcode_table.json give every word the same command (R71). -/
def Obligations.DecodeAgreesWithOpcodeTable : Prop :=
  ∀ w : Word,
    (rowOf w).map OpcodeRow.mnemonic =
      match decode w with
      | .instr .init => some "INIT"
      | .instr (.send _) => some "SEND"
      | .illegal _ => none

/-- R79: INIT assembles to 0x0100, SEND to `0x0200 | imm8`, a character stands for its ASCII code, and a value outside
0..255 is refused. -/
def Obligations.AssemblerEncodes : Prop :=
  assemble .init = some (.cmd 0x0100#16) ∧
  (∀ n : Nat, assemble (.send (.dec n)) = if n ≤ 255 then some (.cmd (0x0200#16 ||| BitVec.ofNat 16 n)) else none) ∧
  (∀ n : Nat, assemble (.send (.hex n)) = if n ≤ 255 then some (.cmd (0x0200#16 ||| BitVec.ofNat 16 n)) else none) ∧
  (∀ c : Char, c.toNat < 128 →
    assemble (.send (.chr c)) = some (.cmd (0x0200#16 ||| BitVec.ofNat 16 c.toNat)))

/-- R78 (over R76's table): the frame read in time order is `{1, v[7:0], 0}` from bit 0 upward. -/
def Obligations.FrameWordIsTheSlots : Prop :=
  (∀ (v : Byte) (k : Nat), k < 10 → (frameWord v).getLsbD k = slotBit v k) ∧
  (∀ v : Byte, (frameWord v).getLsbD 0 = false ∧ (frameWord v).getLsbD 9 = true ∧
    ∀ k : Nat, k < 8 → (frameWord v).getLsbD (k + 1) = v.getLsbD k) ∧
  frameWord 0x55#8 = 0x2AA#10

/-! ## Parameters and pins -/

/-- R10: a machine is built exactly for the valid parameters, and it is the machine of their configuration. The last
line of the conditions is the model's reading of the types of R9 (a port has a pin, clock and baud rate are positive;
log 3). -/
def Obligations.BuildsExactlyValidConfigurations : Prop :=
  ∀ p : Params,
    (∀ m, machine? p = some m → ∃ c, Configuration.build? p = some c ∧ m = coreAt c) ∧
    ((∃ c, Configuration.build? p = some c ∧ c.params = p ∧ machine? p = some (coreAt c)) ↔
      1 ≤ p.bitCycles ∧ 1 ≤ p.setupCycles ∧ 1 ≤ p.teardownCycles ∧
      p.txPin < p.nPins ∧ p.rxPin < p.nPins ∧
      (match p.wiring with
       | .single => p.txPin = p.rxPin
       | .dual => p.txPin ≠ p.rxPin) ∧
      0 < p.fClk ∧ 0 < p.baud)

/-- R13, R54, R56: a write of one pin's bit sets that bit, leaves every other pin's bit alone, and repeated changes
nothing. -/
def Obligations.PinWriteSetsOneBit : Prop :=
  ∀ (r : PinSet) (pin other : Nat) (b : Bool),
    (r.put pin b).get pin = b ∧
    (other ≠ pin → (r.put pin b).get other = r.get other) ∧
    (r.put pin b).put pin b = r.put pin b

/-- R36: what a pin shows. -/
def Obligations.DriveAndLineOfAPin : Prop :=
  ∀ (s : State) (pin : Nat),
    (s.block.dir.get pin = true →
      s.block.drive pin = .level (if s.block.out.get pin then .high else .low) ∧
      s.line pin = if s.block.out.get pin then .high else .low) ∧
    (s.block.dir.get pin = false →
      s.block.drive pin = .z ∧ s.line pin = if s.now.ext.get pin then .high else .low)

/-! ## INIT -/

/-- INIT completes in every state, and what it does to every field (R90, with R92 and R93): the result and the frame.
Which branch is taken is the parameters'. -/
def Obligations.InitCompletes : Prop :=
  ∀ s : State, ∃ t : State, Machine.exec .init s = .next t ∧
    (∀ pin, t.block.dir.get pin =
      if Config.params.wiring = .dual ∧ pin = Config.params.txPin then true
      else if pin = Config.params.rxPin then false else s.block.dir.get pin) ∧
    (∀ pin, t.block.out.get pin =
      if Config.params.wiring = .dual ∧ pin = Config.params.txPin then true else s.block.out.get pin) ∧
    (∀ pin, t.block.pue.get pin = if pin = Config.params.rxPin then false else s.block.pue.get pin) ∧
    (∀ pin, t.block.pcmsk.get pin =
      if Config.params.rxIrq = true ∧ pin = Config.params.rxPin then true else s.block.pcmsk.get pin) ∧
    t.block.pcie = (if Config.params.rxIrq then true else s.block.pcie) ∧
    t.block.initDone = true ∧
    (∀ f, f ∈ t.block.faults ↔ f ∈ s.block.faults ∨ (s.block.initDone = true ∧ f = .initRepeated)) ∧
    t.block.phase = s.block.phase ∧ t.block.cyc = s.block.cyc ∧ t.block.bitIdx = s.block.bitIdx ∧
    t.block.txByte = s.block.txByte ∧ t.block.cs = s.block.cs ∧ t.block.savedGie = s.block.savedGie ∧
    t.block.gie = s.block.gie ∧
    t.cycle = s.cycle ∧ t.program = s.program ∧ t.env = s.env

/-- R143: an INIT with INIT_DONE = 1 is recorded and makes the writes of any INIT; after an INIT they change nothing. -/
def Obligations.RepeatedInitChangesNoPin : Prop :=
  (∀ s : State, s.block.initDone = true →
    ∃ t u : State, Machine.exec .init s = .next t ∧
      Machine.exec .init { s with block := { s.block with initDone := false } } = .next u ∧
      ModelFault.initRepeated ∈ t.block.faults ∧
      t = { u with block := { u.block with faults := t.block.faults } }) ∧
  ∀ s t : State, Machine.exec .init s = .next t →
    ∃ u : State, Machine.exec .init t = .next u ∧
      ModelFault.initRepeated ∈ u.block.faults ∧
      (∀ f ∈ u.block.faults, f ∈ t.block.faults ∨ f = .initRepeated) ∧
      u = { t with block := { t.block with faults := u.block.faults } }

/-- R91: INIT takes one cycle. The engine stays IDLE and the next request can be accepted in the next cycle unless
a stall occurs there. -/
def Obligations.InitTakesOneCycle : Prop :=
  ∀ s : State, s.accepting = true → s.request = .cmd (encode .init) →
    ∃ t : State, Machine.step s = .next t ∧ t.block.phase = .idle ∧ t.block.busy = false ∧
      t.cycle = s.cycle + 1 ∧ t.cmdReady = !t.stalled ∧
      (t.now.rst = false → t.stalled = false → t.accepting = true)

/-- R94: INIT leaves the idle configuration of R42 for as long as no request follows, whatever stalls come, and has no
other effect. -/
def Obligations.InitThenNothingStaysIdle : Prop :=
  ∀ (c : Configuration) (s : State) (n : Nat), s.block.Inv c.params → s.accepting = true →
    s.request = .cmd (encode .init) →
    (∀ j, j < n → present (keepProgram^[j] (serveProgram s.program)) = .none) → NoReset (n + 1) s →
    ∃ u t : State, stepAt c s = .next u ∧ runAt c (n + 1) s = .next t ∧
      t.block = u.block ∧ t.block.phase = .idle ∧ t.block.IdleConfig c.params

/-! ## SEND -/

/-- SEND completes in every state, with every byte, and what it does to every field at its acceptance (R101): the
result and the frame. -/
def Obligations.SendCompletes : Prop :=
  ∀ (v : Byte) (s : State), ∃ t : State, Machine.exec (.send v) s = .next t ∧
    t.block.txByte = v ∧ t.block.savedGie = s.block.gie ∧
    t.block.phase = .setup ∧ t.block.cyc = 0 ∧ t.block.bitIdx = 0 ∧
    (∀ pin, t.block.dir.get pin = if pin = Config.params.txPin then true else s.block.dir.get pin) ∧
    (∀ pin, t.block.out.get pin = if pin = Config.params.txPin then true else s.block.out.get pin) ∧
    t.block.drive Config.params.txPin = .level .high ∧
    (∀ f, f ∈ t.block.faults ↔ f ∈ s.block.faults ∨ (s.block.initDone = false ∧ f = .notInitialized v)) ∧
    t.block.gie = s.block.gie ∧ t.block.cs = s.block.cs ∧ t.block.initDone = s.block.initDone ∧
    t.block.pue = s.block.pue ∧ t.block.pcmsk = s.block.pcmsk ∧ t.block.pcie = s.block.pcie ∧
    t.cycle = s.cycle ∧ t.program = s.program ∧ t.env = s.env

/-- R142: a SEND before INIT is recorded and runs as one after INIT does; no later state of the run is final. -/
def Obligations.SendBeforeInitStillRuns : Prop :=
  ∀ (v : Byte) (s : State), s.block.initDone = false →
    ∃ t u : State, Machine.exec (.send v) s = .next t ∧
      Machine.exec (.send v) { s with block := { s.block with initDone := true } } = .next u ∧
      ModelFault.notInitialized v ∈ t.block.faults ∧
      t = { u with block := { u.block with initDone := false, faults := t.block.faults } } ∧
      ∀ (n : Nat) (w : State), runAt Config.configuration n t = .next w → ¬ w.Final

/-- R118: in DUAL mode after INIT, SEND writes DIR[tx] and OUT[tx] onto bits that already hold 1, so no pin changes. -/
def Obligations.DualSendKeepsThePins : Prop :=
  ∀ (c : Configuration) (s : State) (v : Byte), c.params.wiring = .dual → s.block.Inv c.params →
    s.block.initDone = true → s.block.phase = .idle →
    ∃ t : State, execAt c (.send v) s = .next t ∧ t.block.dir = s.block.dir ∧ t.block.out = s.block.out ∧
      s.block.drive c.params.txPin = .level .high ∧ t.block.drive c.params.txPin = .level .high

/-! ## The step -/

/-- This machine is the one built for the parameters `Config.params`, which are valid, and its step and runs are that
machine's: what is stated for every configuration holds of it (R9, R10). -/
def Obligations.StepIsTheInstance : Prop :=
  (∀ s : State, Machine.step s = stepAt Config.configuration s) ∧
  (∀ (n : Nat) (s : State), Sys2Proof.core.run n s = runAt Config.configuration n s) ∧
  Config.params.Valid ∧ machine? Config.params = some Sys2Proof.core

/-- A step runs the decoded command: in a cycle in which a presented word is accepted and decodes to a command, the
step is that command's meaning, on the state whose clock, program and inputs have moved on one cycle (R37, R100). -/
def Obligations.StepRunsTheDecodedCommand : Prop :=
  ∀ (s : State) (w : Word) (i : Instr), s.accepting = true → s.request = .cmd w → decode w = .instr i →
    Machine.step s = Machine.exec i s.serve ∧
    s.serve = { s with cycle := s.cycle + 1, program := serveProgram s.program, env := s.env.tail } ∧
    (∀ rest, s.program = .cmd w :: rest → s.serve.program = rest)

/-- A word placed for the next step is accepted by it and runs as the command it decodes to, in every state (R71, R37;
the placing is the model's own, log 9). -/
def Obligations.PlacedWordRunsNext : Prop :=
  ∀ (s : State) (w : Nat) (i : Instr), decodeTableWord 16 w = some i →
    (s.withFetchWord 16 w).accepting = true ∧
    Machine.step (s.withFetchWord 16 w) = Machine.exec i (s.withFetchWord 16 w).serve

/-- R100: exactly one branch applies in every state, so every step gives a next state: no step faults or is refused. -/
def Obligations.EveryStepGoesOn : Prop :=
  ∀ s : State, ∃ t : State, Machine.step s = .next t ∧ t.cycle = s.cycle + 1 ∧ t.env = s.env.tail

/-- R144: an accepted word that is neither INIT nor SEND is recorded and changes nothing else. -/
def Obligations.IllegalWordOnlyRecorded : Prop :=
  ∀ (s : State) (w : Word), s.accepting = true → s.request = .cmd w →
    w ≠ 0x0100#16 → ¬(0x0200 ≤ w.toNat ∧ w.toNat ≤ 0x02FF) →
    ∃ t : State, Machine.step s = .next t ∧
      (∀ f, f ∈ t.block.faults ↔ f ∈ s.block.faults ∨ f = .illegalCommand w) ∧
      t = { s.serve with block := { s.block with faults := t.block.faults } }

/-- R38: a presented request leaves the host's program exactly in a cycle in which it is accepted, and the rest of the
program remains; otherwise it is held and presented again. A program with a request to present is that request and the
rest, after any number of `WAIT 0`, which take no cycle (R80). -/
def Obligations.RequestServedExactlyWhenAccepted : Prop :=
  ∀ s : State, s.request ≠ .none →
    ∃ t : State, Machine.step s = .next t ∧
      (s.accepting = true → t.program = serveProgram s.program) ∧
      (s.accepting = true → ∀ (k : Nat) (rest : List HostItem),
        ((∃ w, s.program = List.replicate k (.wait 0) ++ .cmd w :: rest) ∨
          ∃ g, s.program = List.replicate k (.wait 0) ++ .setGie g :: rest) →
        t.program = rest) ∧
      (s.accepting = false → t.request = s.request)

/-- R170: the reset event, whatever the phase, the stall or the request. Every field, `FAULTS` kept; the platform
registers take the parameters P_RST_* on every pin of the port. -/
def Obligations.ResetEventSetsEveryField : Prop :=
  ∀ s : State, s.now.rst = true → ∃ t : State, Machine.step s = .next t ∧
    t.block.phase = .idle ∧ t.block.cyc = 0 ∧ t.block.bitIdx = 0 ∧ t.block.txByte = 0x00#8 ∧
    t.block.cs = false ∧ t.block.savedGie = false ∧ t.block.initDone = false ∧
    t.block.faults = s.block.faults ∧
    (∀ pin, pin < Config.params.nPins →
      t.block.dir.get pin = Config.params.rstDir.getLsbD pin ∧
      t.block.out.get pin = Config.params.rstOut.getLsbD pin ∧
      t.block.pue.get pin = Config.params.rstPue.getLsbD pin ∧
      t.block.pcmsk.get pin = Config.params.rstPcmsk.getLsbD pin) ∧
    t.block.pcie = Config.params.rstPcie ∧ t.block.gie = Config.params.rstGie ∧
    (t.now.rst = false → t.stalled = false → t.accepting = true)

/-- R172, R170: a run starts at the reset state with no fault recorded; the engine stays IDLE and is ready in the first
cycle without a reset or an effective stall, however many cycles with one come before it, whatever the program. That
the whole block, platform registers included, is the launch block again after further resets is the model's reading
that every reset of one machine gives the same platform values (log 2). -/
def Obligations.LaunchState : Prop :=
  State.reset.block.faults = [] ∧ State.reset.block = resetBlock Config.params State.reset.block ∧
  State.reset.block.phase = .idle ∧ State.reset.block.gie = Config.params.rstGie ∧
  ∀ (program : List HostItem) (env : List EnvInput) (s : State) (n : Nat),
    s = { State.reset with program := program, env := env } →
    (∀ i, i < n → ∃ u : State, runAt Config.configuration i s = .next u ∧ (u.now.rst = true ∨ u.stalled = true)) →
    ∃ t : State, runAt Config.configuration n s = .next t ∧ t.block = State.reset.block ∧
      t.cmdReady = (!t.stalled) ∧ (t.now.rst = false → t.stalled = false → t.accepting = true)

/-- R112: in IDLE with no request, or in a stalled cycle, the block is unchanged, and a presented request is held. -/
def Obligations.IdleOrStalledCycleHolds : Prop :=
  ∀ s : State, s.now.rst = false → (s.block.phase = .idle ∧ s.request = .none) ∨ s.stalled = true →
    ∃ t : State, Machine.step s = .next t ∧ t.block = s.block ∧ (s.request ≠ .none → t.request = s.request)

/-- R117: while busy a request has no effect, whatever it is, and is held; it takes effect in an IDLE cycle without an
effective stall. -/
def Obligations.RequestsWhileBusyAreHeld : Prop :=
  (∀ (s : State) (other : List HostItem), s.block.phase ≠ .idle →
    ∃ t u : State, Machine.step s = .next t ∧ Machine.step { s with program := other } = .next u ∧
      u.block = t.block ∧ (s.request ≠ .none → t.request = s.request)) ∧
  (∀ s : State, s.now.rst = false → s.block.phase = .idle → s.stalled = false → s.request ≠ .none →
    s.accepting = true ∧ ∃ t : State, Machine.step s = .next t ∧ t.program = serveProgram s.program)

/-- R113: SETGIE(b), accepted only with CMD_READY, writes GIE and nothing else; in another cycle without a reset it is
held and writes nothing. -/
def Obligations.SetGieWritesTheEnable : Prop :=
  ∀ (s : State) (g : Bool), s.request = .setGie g →
    (s.accepting = true → Machine.step s = .next { s.serve with block := { s.block with gie := g } }) ∧
    (s.now.rst = false → s.stalled = true → Machine.step s = .next s.hold ∧ s.hold.request = .setGie g) ∧
    (s.now.rst = false → s.block.phase ≠ .idle → ∃ t, Machine.step s = .next t ∧ t.request = .setGie g)

/-! ## The phase rules: one live cycle (no reset, no effective stall) of a busy block -/

/-- R102: within a phase, CYC counts and nothing else changes. -/
def Obligations.WithinPhaseOnlyCounts : Prop :=
  ∀ (c : Configuration) (s : State), s.Live → s.block.phase ≠ .idle →
    s.block.cyc < phaseLen c.params s.block.phase - 1 →
    stepAt c s = .next { s.hold with block := { s.block with cyc := s.block.cyc + 1 } }

/-- R104: the end of SETUP is the start edge and the entry to the critical section. -/
def Obligations.EndOfSetupIsTheStartEdge : Prop :=
  ∀ s : State, s.Live → s.block.phase = .setup → s.block.cyc = Config.params.setupCycles - 1 →
    Machine.step s = .next { s.hold with
      block := { s.block with
        out := s.block.out.put Config.params.txPin false, gie := false, cs := true, phase := .start, cyc := 0 } }

/-- R105: the end of START puts data bit 0 on the pin. -/
def Obligations.EndOfStartPutsBitZero : Prop :=
  ∀ s : State, s.Live → s.block.phase = .start → s.block.cyc = Config.params.bitCycles - 1 →
    Machine.step s = .next { s.hold with
      block := { s.block with
        out := s.block.out.put Config.params.txPin (s.block.txByte.getLsbD 0),
        phase := .data, bitIdx := 0, cyc := 0 } }

/-- R106: the end of data bit i < 7 puts data bit i + 1 on the pin. -/
def Obligations.EndOfDataBitPutsTheNext : Prop :=
  ∀ s : State, s.Live → s.block.phase = .data → s.block.cyc = Config.params.bitCycles - 1 →
    s.block.bitIdx.val < 7 →
    ∃ t : State, Machine.step s = .next t ∧ t.block.bitIdx.val = s.block.bitIdx.val + 1 ∧
      t = { s.hold with
        block := { s.block with
          out := s.block.out.put Config.params.txPin (s.block.txByte.getLsbD (s.block.bitIdx.val + 1)),
          bitIdx := t.block.bitIdx, cyc := 0 } }

/-- R107: the end of data bit 7 begins the stop bit. -/
def Obligations.EndOfLastDataBitIsTheStopEdge : Prop :=
  ∀ s : State, s.Live → s.block.phase = .data → s.block.cyc = Config.params.bitCycles - 1 → s.block.bitIdx = 7 →
    Machine.step s = .next { s.hold with
      block := { s.block with
        out := s.block.out.put Config.params.txPin true, phase := .stop, bitIdx := 0, cyc := 0 } }

/-- R109 and R110: the end of STOP leaves the critical section. GIE becomes 1 if it was 1 at SEND acceptance, and
otherwise whatever the cycle's draw is, 0 and 1 alike. -/
def Obligations.EndOfStopRestoresTheEnable : Prop :=
  ∀ s : State, s.Live → s.block.phase = .stop → s.block.cyc = Config.params.bitCycles - 1 →
    (s.block.savedGie = true →
      Machine.step s = .next { s.hold with
        block := { s.block with cs := false, gie := true, phase := .teardown, cyc := 0 } }) ∧
    (s.block.savedGie = false →
      Machine.step s = .next { s.hold with
        block := { s.block with cs := false, gie := s.now.draw, phase := .teardown, cyc := 0 } })

/-- R111: the end of TEARDOWN returns to IDLE with no residue; in SINGLE mode the pin is released. -/
def Obligations.EndOfTeardownReleases : Prop :=
  ∀ s : State, s.Live → s.block.phase = .teardown → s.block.cyc = Config.params.teardownCycles - 1 →
    ∃ t : State, Machine.step s = .next t ∧
      t = { s.hold with
        block := { s.block with
          phase := .idle, cyc := 0, bitIdx := 0, txByte := 0x00#8, savedGie := false,
          dir := t.block.dir, pue := t.block.pue } } ∧
      (∀ pin, t.block.dir.get pin =
        if Config.params.wiring = .single ∧ pin = Config.params.txPin then false else s.block.dir.get pin) ∧
      (∀ pin, t.block.pue.get pin =
        if Config.params.wiring = .single ∧ pin = Config.params.txPin then false else s.block.pue.get pin)

/-! ## Invariants -/

/-- The invariant holds at reset, with any program and any environment. -/
def Obligations.InvariantAtReset : Prop :=
  ∀ (program : List HostItem) (env : List EnvInput),
    ({ State.reset with program := program, env := env } : State).block.Inv Config.params

/-- The headline invariant: every step from a state that meets it gives a state that meets it (R22–R24, R41, R42, R119,
and the model's forms of the pin registers and of FAULTS, log 4 and log 8). -/
def Obligations.StepKeepsTheInvariant : Prop :=
  ∀ s t : State, s.block.Inv Config.params → Machine.step s = .next t → t.block.Inv Config.params

/-- R41: the critical-section invariant, for every reachable state. -/
def Obligations.ReachableCriticalSection : Prop :=
  ∀ s : State, Reachable s →
    (s.block.cs = true ↔ s.block.phase = .start ∨ s.block.phase = .data ∨ s.block.phase = .stop) ∧
    (s.block.cs = true → s.block.gie = false)

/-- R42: the idle configuration, in every reachable idle state after INIT. -/
def Obligations.ReachableIdleConfiguration : Prop :=
  ∀ s : State, Reachable s → s.block.phase = .idle → s.block.initDone = true →
    s.block.IdleConfig Config.params

/-- R22 and R23: the TX pin is driven as the table of phases says, and the counter stays below the longest phase, in
every state that meets the invariant. -/
def Obligations.TxPinFollowsThePhaseTable : Prop :=
  ∀ (p : Params) (b : Block), p.Valid → b.Inv p →
    b.cyc < max p.bitCycles (max p.setupCycles p.teardownCycles) ∧
    (b.phase = .setup → b.drive p.txPin = .level .high) ∧
    (b.phase = .start → b.drive p.txPin = .level .low) ∧
    (b.phase = .data → b.drive p.txPin = .level (if b.txByte.getLsbD b.bitIdx.val then .high else .low)) ∧
    (b.phase = .stop → b.drive p.txPin = .level .high) ∧
    (b.phase = .teardown → b.drive p.txPin = .level .high)

/-- The three enables of R145: after INIT with the receive hook they are all set exactly when GIE is 1, in every state
that meets the invariant. Whether an interrupt is pending, and its handler, are outside the model (log 15). -/
def Obligations.ReceiveInterruptWaitsForGie : Prop :=
  ∀ (p : Params) (b : Block), b.Inv p → b.initDone = true → p.rxIrq = true → b.rxInterruptEnabled p = b.gie

/-- R146: an effective stall can occur only in IDLE, SETUP or TEARDOWN, whatever the input; in START, DATA and STOP a
stall input is without effect. -/
def Obligations.NoEffectiveStallInAFrame : Prop :=
  ∀ (c : Configuration) (s : State), s.block.Inv c.params →
    (s.stalled = true → s.block.phase = .idle ∨ s.block.phase = .setup ∨ s.block.phase = .teardown) ∧
    (∀ stall : Bool, s.block.phase = .start ∨ s.block.phase = .data ∨ s.block.phase = .stop →
      s.block.stallEff stall = false)

/-- R29 and R141: no step removes a fault from FAULTS, a reset included. -/
def Obligations.FaultsAreSticky : Prop :=
  ∀ (s t : State) (f : ModelFault), Machine.step s = .next t → f ∈ s.block.faults → f ∈ t.block.faults

/-- R141 and R186: a faulted state is never final, nor is any state a run reaches from it. -/
def Obligations.FaultedRunNeverFinal : Prop :=
  ∀ (c : Configuration) (s t : State) (n : Nat) (f : ModelFault), 
    f ∈ s.block.faults → runAt c n s = .next t → ¬ t.Final

/-! ## Rules about the whole machine -/

/-- R40: without a reset, no step writes DIR, OUT, PUE or PCMSK of a pin other than TX and RX, nor OUT[rx] in DUAL
mode. -/
def Obligations.OtherPinsUntouched : Prop :=
  ∀ (s t : State) (pin : Nat), s.now.rst = false → Machine.step s = .next t →
    (pin ≠ Config.params.txPin → t.block.out.get pin = s.block.out.get pin) ∧
    (pin ≠ Config.params.rxPin → t.block.pcmsk.get pin = s.block.pcmsk.get pin) ∧
    (pin ≠ Config.params.txPin → pin ≠ Config.params.rxPin →
      t.block.dir.get pin = s.block.dir.get pin ∧ t.block.pue.get pin = s.block.pue.get pin)

/-- R32, R33, R34: without a reset, no step writes 1 to PUE, nor 0 to PCMSK or PCIE. -/
def Obligations.PullUpsOnlyClearedMasksOnlySet : Prop :=
  ∀ (s t : State), s.now.rst = false → Machine.step s = .next t →
    (∀ pin, t.block.pue.get pin = true → s.block.pue.get pin = true) ∧
    (∀ pin, s.block.pcmsk.get pin = true → t.block.pcmsk.get pin = true) ∧
    (s.block.pcie = true → t.block.pcie = true)

/-- R35: the only events that change GIE are a reset, an accepted SETGIE, the start edge (which clears it) and the end
of the stop bit. -/
def Obligations.OnlyTheseEventsChangeGie : Prop :=
  ∀ s t : State, Machine.step s = .next t → t.block.gie ≠ s.block.gie →
    s.now.rst = true ∨
    (s.accepting = true ∧ s.request = .setGie t.block.gie) ∨
    (s.block.phase = .setup ∧ t.block.phase = .start ∧ t.block.gie = false) ∨
    (s.block.phase = .stop ∧ t.block.phase = .teardown)

/-- R25–R28: without a reset, TXBYTE and SAVED_GIE change only where a SEND loads them and where the return to IDLE
clears them; INIT_DONE only where INIT sets it; CS only at the start edge and at the end of the stop bit. -/
def Obligations.OnlyTheseEventsChangeTheLatches : Prop :=
  ∀ s t : State, s.now.rst = false → Machine.step s = .next t →
    (t.block.txByte ≠ s.block.txByte ∨ t.block.savedGie ≠ s.block.savedGie →
      (s.block.phase = .idle ∧ t.block.phase = .setup) ∨
      (s.block.phase = .teardown ∧ t.block.phase = .idle ∧ t.block.txByte = 0x00#8 ∧ t.block.savedGie = false)) ∧
    (t.block.initDone ≠ s.block.initDone →
      t.block.initDone = true ∧ s.accepting = true ∧ s.request = .cmd (encode .init)) ∧
    (t.block.cs ≠ s.block.cs →
      (s.block.phase = .setup ∧ t.block.phase = .start ∧ t.block.cs = true) ∨
      (s.block.phase = .stop ∧ t.block.phase = .teardown ∧ t.block.cs = false))

/-- R120: without a reset the phases follow in one order only; IDLE is left by an accepted SEND, and DATA by its eighth
bit. -/
def Obligations.PhasesFollowInOrder : Prop :=
  ∀ s t : State, s.now.rst = false → Machine.step s = .next t →
    t.block.phase = s.block.phase ∨
    (s.block.phase = .idle ∧ t.block.phase = .setup ∧ s.accepting = true ∧
      ∃ v : Byte, s.request = .cmd (encode (.send v)) ∧ t.block.txByte = v) ∨
    (s.block.phase = .setup ∧ t.block.phase = .start) ∨
    (s.block.phase = .start ∧ t.block.phase = .data ∧ t.block.bitIdx = 0) ∨
    (s.block.phase = .data ∧ t.block.phase = .stop ∧ s.block.bitIdx = 7) ∨
    (s.block.phase = .stop ∧ t.block.phase = .teardown) ∨
    (s.block.phase = .teardown ∧ t.block.phase = .idle)

/-- R80: from WAIT n at the head of the program, the machine has no request for n cycles and then presents the next
item. Every cycle of the clock counts, an idle, a busy, a stalled and a reset cycle alike: that the stalled and the
reset ones do is the model's reading (log 6, log 7). -/
def Obligations.WaitPresentsNothingForItsCycles : Prop :=
  ∀ (c : Configuration) (s : State) (n : Nat) (rest : List HostItem), s.program = .wait n :: rest →
    (∀ j, j < n → ∃ t : State, runAt c j s = .next t ∧ t.request = .none) ∧
    ∃ t : State, runAt c n s = .next t ∧ t.request = present rest ∧ (0 < n → t.program = rest)

/-! ## Frames -/

/-- R108: frame timing. σ is the number of effective stalls in SETUP: of the cycles from acceptance up to the start
edge, 1 + S + σ in all, exactly σ are stalled. -/
def Obligations.FrameTiming : Prop :=
  ∀ (c : Configuration) (s : State) (v : Byte) (σ : Nat), s.accepting = true →
    s.request = .cmd (encode (.send v)) →
    stallsIn c (1 + c.params.setupCycles + σ) s = σ →
    NoReset (1 + c.params.setupCycles + σ + 10 * c.params.bitCycles) s →
    (∀ k j, k ≤ 9 → j < c.params.bitCycles →
      ∃ t : State, runAt c (1 + c.params.setupCycles + σ + k * c.params.bitCycles + j) s = .next t ∧
        t.block.drive c.params.txPin = .level (slotLevel v k) ∧
        t.block.gie = false ∧ t.block.cs = true ∧ t.stalled = false) ∧
    (∀ n, 1 ≤ n → n ≤ c.params.setupCycles + σ →
      ∃ t : State, runAt c n s = .next t ∧ t.block.drive c.params.txPin = .level .high)

/-- R115: the reference decoder recovers every byte from the line, sampled at any one offset h of each slot. -/
def Obligations.ReferenceDecoderRecoversTheByte : Prop :=
  ∀ (c : Configuration) (s : State) (v : Byte) (σ h : Nat), s.accepting = true →
    s.request = .cmd (encode (.send v)) →
    stallsIn c (1 + c.params.setupCycles + σ) s = σ →
    NoReset (1 + c.params.setupCycles + σ + 10 * c.params.bitCycles) s →
    h < c.params.bitCycles →
    refDecode (fun k => lineAfter c (1 + c.params.setupCycles + σ + k * c.params.bitCycles + h) s c.params.txPin) =
      some v

/-- R148: from the start edge, whatever the environment does short of a reset, the 10 slots are B cycles each, no stall
has an effect in them, and the critical section ends with the stop bit. -/
def Obligations.SlotsAreExact : Prop :=
  ∀ (c : Configuration) (s : State), s.block.Inv c.params → s.block.phase = .start → s.block.cyc = 0 →
    NoReset (10 * c.params.bitCycles) s →
    (∀ k j, k ≤ 9 → j < c.params.bitCycles →
      ∃ t : State, runAt c (k * c.params.bitCycles + j) s = .next t ∧
        t.block.drive c.params.txPin = .level (slotLevel s.block.txByte k) ∧
        t.block.cs = true ∧ t.block.gie = false ∧ ∀ stall : Bool, t.block.stallEff stall = false) ∧
    (∃ t : State, runAt c (10 * c.params.bitCycles) s = .next t ∧ t.block.phase = .teardown ∧ t.block.cs = false)

/-- R114: the busy duration. Counting from the cycle after acceptance, the engine is busy until
S + σ + 10·B + T + τ cycles have passed, σ + τ the effective stalls among them, and is then idle. -/
def Obligations.BusyDuration : Prop :=
  ∀ (c : Configuration) (s t : State) (v : Byte) (n : Nat), s.accepting = true →
    s.request = .cmd (encode (.send v)) → NoReset (n + 1) s → runAt c (n + 1) s = .next t →
    (n < c.params.setupCycles + 10 * c.params.bitCycles + c.params.teardownCycles + stallsIn c (n + 1) s →
      t.block.busy = true) ∧
    (n = c.params.setupCycles + 10 * c.params.bitCycles + c.params.teardownCycles + stallsIn c (n + 1) s →
      t.block.busy = false)

/-- R43 and R116: data independence. From two states that differ at most in the bytes being sent and to be sent, n
cycles give two such states again: the same phase, counters, DIR, PUE, GIE and BUSY, and the same OUT but for the TX pin
during DATA. -/
def Obligations.TimingIndependentOfData : Prop :=
  ∀ (c : Configuration) (s t : State), s.SameButByte c.params t →
    ∀ n : Nat, ∃ s' t' : State, runAt c n s = .next s' ∧ runAt c n t = .next t' ∧ s'.SameButByte c.params t' ∧
      s'.block.busy = t'.block.busy

/-- R147, R120: under fair stalls a frame in progress always comes to its end. -/
def Obligations.FairFrameEnds : Prop :=
  ∀ (c : Configuration) (s : State), s.block.Inv c.params → FairStalls c s →
    ∃ (n : Nat) (t : State), runAt c n s = .next t ∧ t.block.phase = .idle
end

