-- ==== Sys2Proof/Laws/Faults.lean ====
section
/-! SUPPORT. `FAULTS` as a set: adding a fault adds that fault and removes none, the canonical form is kept, and
equal sets are equal lists (R29, R141, log 8). -/

namespace Sys2Proof.Machine

theorem ModelFault.value_lt (f : ModelFault) : f.value < 2 ^ 16 := by
  cases f with
  | illegalCommand w => exact w.isLt
  | notInitialized v => exact v.isLt.trans (Nat.pow_lt_pow_right (by omega) (by omega))
  | initRepeated => exact Nat.two_pow_pos 16

/-- A key determines the code and the recorded value. -/
theorem ModelFault.code_value_of_key {f g : ModelFault} (h : f.key = g.key) : f.code = g.code ∧ f.value = g.value := by
  have hf := f.value_lt
  have hg := g.value_lt
  unfold ModelFault.key at h
  generalize 2 ^ 16 = m at *
  have hm : 0 < m := by omega
  have hv : f.value = g.value := by
    simpa [Nat.add_mod, Nat.mod_eq_of_lt hf, Nat.mod_eq_of_lt hg] using congrArg (· % m) h
  exact ⟨Nat.eq_of_mul_eq_mul_right hm (by omega), hv⟩

theorem ModelFault.key_injective {f g : ModelFault} (h : f.key = g.key) : f = g := by
  obtain ⟨hc, hv⟩ := ModelFault.code_value_of_key h
  cases f <;> cases g <;>
    first
    | rfl
    | exact congrArg _ (BitVec.eq_of_toNat_eq hv)
    | exact absurd hc (by simp [ModelFault.code])

@[simp] theorem mem_insertFault (f g : ModelFault) (fs : List ModelFault) :
    g ∈ insertFault f fs ↔ g = f ∨ g ∈ fs := by
  induction fs with
  | nil => simp [insertFault]
  | cons h hs ih =>
    unfold insertFault
    split
    · simp
    · split
      next e => simp [ModelFault.key_injective e]
      next => simp only [List.mem_cons, ih]; exact or_left_comm

theorem insertFault_sorted (f : ModelFault) {fs : List ModelFault} (h : FaultsSorted fs) :
    FaultsSorted (insertFault f fs) := by
  induction fs with
  | nil => simp [insertFault]
  | cons g gs ih =>
    obtain ⟨hg, hgs⟩ := List.pairwise_cons.mp h
    unfold insertFault
    split
    next lt => exact List.pairwise_cons.mpr ⟨fun x hx => by
      rcases List.mem_cons.mp hx with rfl | hx
      · exact lt
      · exact Nat.lt_trans lt (hg x hx), h⟩
    next nlt =>
      split
      · exact h
      next ne => exact List.pairwise_cons.mpr ⟨fun x hx => by
          rcases (mem_insertFault f x gs).mp hx with rfl | hx
          · exact Nat.lt_of_le_of_ne (Nat.le_of_not_lt nlt) (Ne.symm ne)
          · exact hg x hx, ih hgs⟩

/-- In the canonical form equal sets are equal lists. -/
theorem faultsSorted_ext {fs gs : List ModelFault} (hf : FaultsSorted fs) (hg : FaultsSorted gs)
    (h : ∀ x, x ∈ fs ↔ x ∈ gs) : fs = gs := by
  have nodup : ∀ {l : List ModelFault}, FaultsSorted l → l.Nodup := fun hl =>
    List.Pairwise.imp (fun {a b} (hab : a.key < b.key) (e : a = b) => Nat.lt_irrefl _ (e ▸ hab)) hl
  exact ((List.perm_ext_iff_of_nodup (nodup hf) (nodup hg)).mpr h).eq_of_pairwise
    (fun _ _ _ _ hab hba => absurd hba (Nat.lt_asymm hab)) hf hg

/-- Recording a fault that is recorded already changes nothing (R143: sticky, a set). -/
theorem insertFault_of_mem {f : ModelFault} {fs : List ModelFault} (hs : FaultsSorted fs) (h : f ∈ fs) :
    insertFault f fs = fs :=
  faultsSorted_ext (insertFault_sorted f hs) hs fun x => by
    rw [mem_insertFault]; exact ⟨fun hx => hx.elim (fun e => e ▸ h) id, Or.inr⟩

end Sys2Proof.Machine
end

