-- ==== Sys2Proof/Laws/Pins.lean ====
section
/-! SUPPORT. Reading and writing one pin of a per-pin register (R13, R54, R56). -/

namespace Sys2Proof

@[ext] theorem PinSet.ext_get {r s : PinSet} (h : ∀ pin, r.get pin = s.get pin) : r = s := by
  cases r with
  | mk a =>
    cases s with
    | mk b => exact congrArg PinSet.mk (Nat.eq_of_testBit_eq h)

theorem PinSet.get_put (r : PinSet) (pin other : Nat) (b : Bool) :
    (r.put pin b).get other = if other = pin then b else r.get other := by
  unfold PinSet.put
  split
  next h => split <;> simp_all
  next h =>
    have flip : ∀ k, (⟨r.bits ^^^ 2 ^ pin⟩ : PinSet).get k = (r.get k ^^ decide (pin = k)) := by
      intro k; simp [PinSet.get, Nat.testBit_xor, Nat.testBit_two_pow]
    rw [flip]
    by_cases e : other = pin
    · subst e; cases hb : r.get other <;> cases b <;> simp_all
    · simp [e, Ne.symm e]

@[simp] theorem PinSet.get_put_same (r : PinSet) (pin : Nat) (b : Bool) : (r.put pin b).get pin = b := by
  simp [PinSet.get_put]

theorem PinSet.get_put_other (r : PinSet) {pin other : Nat} (b : Bool) (h : other ≠ pin) :
    (r.put pin b).get other = r.get other := by simp [PinSet.get_put, h]

/-- Writing the bit a pin holds already changes nothing (R56). -/
theorem PinSet.put_of_get {r : PinSet} {pin : Nat} {b : Bool} (h : r.get pin = b) : r.put pin b = r := by
  simp [PinSet.put, h]

/-- A write to a pin of the port sets no bit beyond the port. -/
theorem PinSet.put_lt {r : PinSet} {pin n : Nat} (b : Bool) (hr : r.bits < 2 ^ n) (hp : pin < n) :
    (r.put pin b).bits < 2 ^ n := by
  unfold PinSet.put
  split
  · exact hr
  · exact Nat.xor_lt_two_pow hr (Nat.pow_lt_pow_right (by omega) hp)

/-- A register loaded from an n-bit value reads as that value on the port. -/
theorem PinSet.get_ofBitVec {n : Nat} (v : BitVec n) (pin : Nat) :
    (⟨v.toNat⟩ : PinSet).get pin = v.getLsbD pin := rfl

end Sys2Proof
end

