-- ==== Sys2Proof/Laws/State.lean ====
section
/-! SUPPORT. One lemma per field per update of the state, so that no later proof unfolds a record update. -/

namespace Sys2Proof.Machine

/-! ### Updates of the whole state -/

@[simp] theorem State.hold_block (s : State) : s.hold.block = s.block := rfl
@[simp] theorem State.hold_cycle (s : State) : s.hold.cycle = s.cycle + 1 := rfl
@[simp] theorem State.hold_program (s : State) : s.hold.program = keepProgram s.program := rfl
@[simp] theorem State.hold_env (s : State) : s.hold.env = s.env.tail := rfl
@[simp] theorem State.serve_block (s : State) : s.serve.block = s.block := rfl
@[simp] theorem State.serve_cycle (s : State) : s.serve.cycle = s.cycle + 1 := rfl
@[simp] theorem State.serve_program (s : State) : s.serve.program = serveProgram s.program := rfl
@[simp] theorem State.serve_env (s : State) : s.serve.env = s.env.tail := rfl
@[simp] theorem State.mapBlock_block (s : State) (f : Block → Block) : (s.mapBlock f).block = f s.block := rfl
@[simp] theorem State.mapBlock_cycle (s : State) (f : Block → Block) : (s.mapBlock f).cycle = s.cycle := rfl
@[simp] theorem State.mapBlock_program (s : State) (f : Block → Block) : (s.mapBlock f).program = s.program := rfl
@[simp] theorem State.mapBlock_env (s : State) (f : Block → Block) : (s.mapBlock f).env = s.env := rfl

/-! ### Updates of the block -/

@[simp] theorem Block.raise_phase (b : Block) (f : ModelFault) : (b.raise f).phase = b.phase := rfl
@[simp] theorem Block.raise_cyc (b : Block) (f : ModelFault) : (b.raise f).cyc = b.cyc := rfl
@[simp] theorem Block.raise_bitIdx (b : Block) (f : ModelFault) : (b.raise f).bitIdx = b.bitIdx := rfl
@[simp] theorem Block.raise_txByte (b : Block) (f : ModelFault) : (b.raise f).txByte = b.txByte := rfl
@[simp] theorem Block.raise_cs (b : Block) (f : ModelFault) : (b.raise f).cs = b.cs := rfl
@[simp] theorem Block.raise_savedGie (b : Block) (f : ModelFault) : (b.raise f).savedGie = b.savedGie := rfl
@[simp] theorem Block.raise_initDone (b : Block) (f : ModelFault) : (b.raise f).initDone = b.initDone := rfl
@[simp] theorem Block.raise_faults (b : Block) (f : ModelFault) : (b.raise f).faults = insertFault f b.faults := rfl
@[simp] theorem Block.raise_dir (b : Block) (f : ModelFault) : (b.raise f).dir = b.dir := rfl
@[simp] theorem Block.raise_out (b : Block) (f : ModelFault) : (b.raise f).out = b.out := rfl
@[simp] theorem Block.raise_pue (b : Block) (f : ModelFault) : (b.raise f).pue = b.pue := rfl
@[simp] theorem Block.raise_pcmsk (b : Block) (f : ModelFault) : (b.raise f).pcmsk = b.pcmsk := rfl
@[simp] theorem Block.raise_pcie (b : Block) (f : ModelFault) : (b.raise f).pcie = b.pcie := rfl
@[simp] theorem Block.raise_gie (b : Block) (f : ModelFault) : (b.raise f).gie = b.gie := rfl

@[simp] theorem Block.setGie_phase (b : Block) (g : Bool) : (b.setGie g).phase = b.phase := rfl
@[simp] theorem Block.setGie_cyc (b : Block) (g : Bool) : (b.setGie g).cyc = b.cyc := rfl
@[simp] theorem Block.setGie_bitIdx (b : Block) (g : Bool) : (b.setGie g).bitIdx = b.bitIdx := rfl
@[simp] theorem Block.setGie_txByte (b : Block) (g : Bool) : (b.setGie g).txByte = b.txByte := rfl
@[simp] theorem Block.setGie_cs (b : Block) (g : Bool) : (b.setGie g).cs = b.cs := rfl
@[simp] theorem Block.setGie_savedGie (b : Block) (g : Bool) : (b.setGie g).savedGie = b.savedGie := rfl
@[simp] theorem Block.setGie_initDone (b : Block) (g : Bool) : (b.setGie g).initDone = b.initDone := rfl
@[simp] theorem Block.setGie_faults (b : Block) (g : Bool) : (b.setGie g).faults = b.faults := rfl
@[simp] theorem Block.setGie_dir (b : Block) (g : Bool) : (b.setGie g).dir = b.dir := rfl
@[simp] theorem Block.setGie_out (b : Block) (g : Bool) : (b.setGie g).out = b.out := rfl
@[simp] theorem Block.setGie_pue (b : Block) (g : Bool) : (b.setGie g).pue = b.pue := rfl
@[simp] theorem Block.setGie_pcmsk (b : Block) (g : Bool) : (b.setGie g).pcmsk = b.pcmsk := rfl
@[simp] theorem Block.setGie_pcie (b : Block) (g : Bool) : (b.setGie g).pcie = b.pcie := rfl
@[simp] theorem Block.setGie_gie (b : Block) (g : Bool) : (b.setGie g).gie = g := rfl

@[simp] theorem Block.enterCritical_phase (b : Block) : (b.enterCritical).phase = b.phase := rfl
@[simp] theorem Block.enterCritical_cyc (b : Block) : (b.enterCritical).cyc = b.cyc := rfl
@[simp] theorem Block.enterCritical_bitIdx (b : Block) : (b.enterCritical).bitIdx = b.bitIdx := rfl
@[simp] theorem Block.enterCritical_txByte (b : Block) : (b.enterCritical).txByte = b.txByte := rfl
@[simp] theorem Block.enterCritical_cs (b : Block) : (b.enterCritical).cs = true := rfl
@[simp] theorem Block.enterCritical_savedGie (b : Block) : (b.enterCritical).savedGie = b.savedGie := rfl
@[simp] theorem Block.enterCritical_initDone (b : Block) : (b.enterCritical).initDone = b.initDone := rfl
@[simp] theorem Block.enterCritical_faults (b : Block) : (b.enterCritical).faults = b.faults := rfl
@[simp] theorem Block.enterCritical_dir (b : Block) : (b.enterCritical).dir = b.dir := rfl
@[simp] theorem Block.enterCritical_out (b : Block) : (b.enterCritical).out = b.out := rfl
@[simp] theorem Block.enterCritical_pue (b : Block) : (b.enterCritical).pue = b.pue := rfl
@[simp] theorem Block.enterCritical_pcmsk (b : Block) : (b.enterCritical).pcmsk = b.pcmsk := rfl
@[simp] theorem Block.enterCritical_pcie (b : Block) : (b.enterCritical).pcie = b.pcie := rfl
@[simp] theorem Block.enterCritical_gie (b : Block) : (b.enterCritical).gie = false := rfl

@[simp] theorem Block.leaveCritical_phase (b : Block) (d : Bool) : (b.leaveCritical d).phase = b.phase := rfl
@[simp] theorem Block.leaveCritical_cyc (b : Block) (d : Bool) : (b.leaveCritical d).cyc = b.cyc := rfl
@[simp] theorem Block.leaveCritical_bitIdx (b : Block) (d : Bool) : (b.leaveCritical d).bitIdx = b.bitIdx := rfl
@[simp] theorem Block.leaveCritical_txByte (b : Block) (d : Bool) : (b.leaveCritical d).txByte = b.txByte := rfl
@[simp] theorem Block.leaveCritical_cs (b : Block) (d : Bool) : (b.leaveCritical d).cs = false := rfl
@[simp] theorem Block.leaveCritical_savedGie (b : Block) (d : Bool) : (b.leaveCritical d).savedGie = b.savedGie := rfl
@[simp] theorem Block.leaveCritical_initDone (b : Block) (d : Bool) : (b.leaveCritical d).initDone = b.initDone := rfl
@[simp] theorem Block.leaveCritical_faults (b : Block) (d : Bool) : (b.leaveCritical d).faults = b.faults := rfl
@[simp] theorem Block.leaveCritical_dir (b : Block) (d : Bool) : (b.leaveCritical d).dir = b.dir := rfl
@[simp] theorem Block.leaveCritical_out (b : Block) (d : Bool) : (b.leaveCritical d).out = b.out := rfl
@[simp] theorem Block.leaveCritical_pue (b : Block) (d : Bool) : (b.leaveCritical d).pue = b.pue := rfl
@[simp] theorem Block.leaveCritical_pcmsk (b : Block) (d : Bool) : (b.leaveCritical d).pcmsk = b.pcmsk := rfl
@[simp] theorem Block.leaveCritical_pcie (b : Block) (d : Bool) : (b.leaveCritical d).pcie = b.pcie := rfl
@[simp] theorem Block.leaveCritical_gie (b : Block) (d : Bool) : (b.leaveCritical d).gie = restoreGie b.savedGie d := rfl

@[simp] theorem Block.driveTx_phase (b : Block) (p : Params) (l : Bool) : (b.driveTx p l).phase = b.phase := rfl
@[simp] theorem Block.driveTx_cyc (b : Block) (p : Params) (l : Bool) : (b.driveTx p l).cyc = b.cyc := rfl
@[simp] theorem Block.driveTx_bitIdx (b : Block) (p : Params) (l : Bool) : (b.driveTx p l).bitIdx = b.bitIdx := rfl
@[simp] theorem Block.driveTx_txByte (b : Block) (p : Params) (l : Bool) : (b.driveTx p l).txByte = b.txByte := rfl
@[simp] theorem Block.driveTx_cs (b : Block) (p : Params) (l : Bool) : (b.driveTx p l).cs = b.cs := rfl
@[simp] theorem Block.driveTx_savedGie (b : Block) (p : Params) (l : Bool) : (b.driveTx p l).savedGie = b.savedGie := rfl
@[simp] theorem Block.driveTx_initDone (b : Block) (p : Params) (l : Bool) : (b.driveTx p l).initDone = b.initDone := rfl
@[simp] theorem Block.driveTx_faults (b : Block) (p : Params) (l : Bool) : (b.driveTx p l).faults = b.faults := rfl
@[simp] theorem Block.driveTx_dir (b : Block) (p : Params) (l : Bool) : (b.driveTx p l).dir = b.dir := rfl
@[simp] theorem Block.driveTx_out (b : Block) (p : Params) (l : Bool) : (b.driveTx p l).out = b.out.put p.txPin l := rfl
@[simp] theorem Block.driveTx_pue (b : Block) (p : Params) (l : Bool) : (b.driveTx p l).pue = b.pue := rfl
@[simp] theorem Block.driveTx_pcmsk (b : Block) (p : Params) (l : Bool) : (b.driveTx p l).pcmsk = b.pcmsk := rfl
@[simp] theorem Block.driveTx_pcie (b : Block) (p : Params) (l : Bool) : (b.driveTx p l).pcie = b.pcie := rfl
@[simp] theorem Block.driveTx_gie (b : Block) (p : Params) (l : Bool) : (b.driveTx p l).gie = b.gie := rfl

end Sys2Proof.Machine
end

