-- ==== Sys2Proof/Laws/Commands.lean ====
section
/-! SUPPORT. What INIT, SEND, a phase end and a reset do, field by field (R90, R101, R104–R111, R170). -/

namespace Sys2Proof.Machine

/-! ### INIT (R90) -/

theorem initBlock_dir (p : Params) (b : Block) (pin : Nat) :
    (initBlock p b).dir.get pin =
      if p.wiring = .dual ∧ pin = p.txPin then true
      else if pin = p.rxPin then false else b.dir.get pin := by
  unfold initBlock initHook initPins
  cases p.wiring <;> cases p.rxIrq <;> cases b.initDone <;> simp [PinSet.get_put]

theorem initBlock_out (p : Params) (b : Block) (pin : Nat) :
    (initBlock p b).out.get pin = if p.wiring = .dual ∧ pin = p.txPin then true else b.out.get pin := by
  unfold initBlock initHook initPins
  cases p.wiring <;> cases p.rxIrq <;> cases b.initDone <;> simp [PinSet.get_put]

theorem initBlock_pue (p : Params) (b : Block) :
    (initBlock p b).pue = b.pue.put p.rxPin false := by
  unfold initBlock initHook initPins
  cases p.wiring <;> cases p.rxIrq <;> cases b.initDone <;> rfl

theorem initBlock_pcmsk (p : Params) (b : Block) :
    (initBlock p b).pcmsk = if p.rxIrq then b.pcmsk.put p.rxPin true else b.pcmsk := by
  unfold initBlock initHook initPins
  cases p.wiring <;> cases p.rxIrq <;> cases b.initDone <;> rfl

theorem initBlock_pcie (p : Params) (b : Block) :
    (initBlock p b).pcie = if p.rxIrq then true else b.pcie := by
  unfold initBlock initHook initPins
  cases p.wiring <;> cases p.rxIrq <;> cases b.initDone <;> rfl

theorem initBlock_faults (p : Params) (b : Block) :
    (initBlock p b).faults = if b.initDone then insertFault .initRepeated b.faults else b.faults := by
  unfold initBlock initHook initPins
  cases p.wiring <;> cases p.rxIrq <;> cases b.initDone <;> rfl

@[simp] theorem initBlock_initDone (p : Params) (b : Block) : (initBlock p b).initDone = true := rfl

/-- What INIT leaves alone: the frame state machine, the critical section and `GIE` (R90, R91, R93). -/
theorem initBlock_frame (p : Params) (b : Block) :
    (initBlock p b).phase = b.phase ∧ (initBlock p b).cyc = b.cyc ∧ (initBlock p b).bitIdx = b.bitIdx ∧
    (initBlock p b).txByte = b.txByte ∧ (initBlock p b).cs = b.cs ∧ (initBlock p b).savedGie = b.savedGie ∧
    (initBlock p b).gie = b.gie := by
  unfold initBlock initHook initPins
  cases p.wiring <;> cases p.rxIrq <;> cases b.initDone <;> simp

/-- INIT writes pins of the port only. -/
theorem initBlock_ports {p : Params} (hp : p.Valid) {b : Block}
    (h : b.dir.bits < 2 ^ p.nPins ∧ b.out.bits < 2 ^ p.nPins ∧ b.pue.bits < 2 ^ p.nPins ∧
      b.pcmsk.bits < 2 ^ p.nPins) :
    (initBlock p b).dir.bits < 2 ^ p.nPins ∧ (initBlock p b).out.bits < 2 ^ p.nPins ∧
      (initBlock p b).pue.bits < 2 ^ p.nPins ∧ (initBlock p b).pcmsk.bits < 2 ^ p.nPins := by
  obtain ⟨-, ⟨ht, hr⟩, -⟩ := hp
  obtain ⟨h1, h2, h3, h4⟩ := h
  refine ⟨?_, ?_, initBlock_pue p b ▸ PinSet.put_lt _ h3 hr, ?_⟩
  · unfold initBlock initHook initPins
    cases p.wiring <;> cases p.rxIrq <;> cases b.initDone <;>
      first
      | exact PinSet.put_lt _ h1 hr
      | exact PinSet.put_lt _ (PinSet.put_lt _ h1 hr) ht
  · unfold initBlock initHook initPins
    cases p.wiring <;> cases p.rxIrq <;> cases b.initDone <;>
      first
      | exact h2
      | exact PinSet.put_lt _ h2 ht
  · rw [initBlock_pcmsk]
    split
    · exact PinSet.put_lt _ h4 hr
    · exact h4

/-! ### SEND (R101) -/

/-- SEND, field by field: a rewriting form that keeps every unnamed field. -/
theorem sendBlock_eq (p : Params) (v : Byte) (b : Block) :
    sendBlock p v b =
      { b with
        faults := if b.initDone then b.faults else insertFault (.notInitialized v) b.faults
        txByte := v, savedGie := b.gie, dir := b.dir.put p.txPin true, out := b.out.put p.txPin true
        phase := .setup, cyc := 0, bitIdx := 0 } := by
  unfold sendBlock
  cases h : b.initDone <;> simp [Block.raise, Block.driveTx, h]

/-! ### The phase ends (R104–R111) -/

theorem startEdge_eq (p : Params) (b : Block) :
    startEdge p b =
      { b with out := b.out.put p.txPin false, gie := false, cs := true, phase := .start, cyc := 0 } := rfl

theorem firstDataBit_eq (p : Params) (b : Block) :
    firstDataBit p b =
      { b with out := b.out.put p.txPin (dataBit b.txByte 0), phase := .data, bitIdx := 0, cyc := 0 } := rfl

theorem nextDataBit_eq (p : Params) (b : Block) :
    nextDataBit p b =
      { b with out := b.out.put p.txPin (dataBit b.txByte (b.bitIdx.val + 1)), bitIdx := b.bitIdx + 1, cyc := 0 } :=
  rfl

theorem stopEdge_eq (p : Params) (b : Block) :
    stopEdge p b = { b with out := b.out.put p.txPin true, phase := .stop, bitIdx := 0, cyc := 0 } := rfl

theorem endStop_eq (d : Bool) (b : Block) :
    endStop d b = { b with cs := false, gie := restoreGie b.savedGie d, phase := .teardown, cyc := 0 } := rfl

theorem endTeardown_eq (p : Params) (b : Block) :
    endTeardown p b =
      { b with
        phase := .idle, cyc := 0, bitIdx := 0, txByte := 0x00#8, savedGie := false
        dir := if p.wiring = .single then b.dir.put p.txPin false else b.dir
        pue := if p.wiring = .single then b.pue.put p.txPin false else b.pue } := by
  unfold endTeardown releaseTx
  cases p.wiring <;> simp

/-- The counter of the data bits below its last does not wrap (R119). -/
theorem bitIdx_succ_val {i : Fin 8} (h : i.val < 7) : (i + 1).val = i.val + 1 := by
  have : ∀ i : Fin 8, i.val < 7 → (i + 1).val = i.val + 1 := by decide
  exact this i h

/-- Everything a live cycle of a busy block can do (R100, R102–R111). -/
inductive AdvanceCase (p : Params) (draw : Bool) (b : Block) : Block → Prop where
  | within (h : b.cyc < phaseLen p b.phase - 1) : AdvanceCase p draw b { b with cyc := b.cyc + 1 }
  | setup (hp : b.phase = .setup) (h : p.setupCycles - 1 ≤ b.cyc) : AdvanceCase p draw b (startEdge p b)
  | start (hp : b.phase = .start) (h : p.bitCycles - 1 ≤ b.cyc) : AdvanceCase p draw b (firstDataBit p b)
  | data (hp : b.phase = .data) (h : p.bitCycles - 1 ≤ b.cyc) (hi : b.bitIdx.val < 7) :
      AdvanceCase p draw b (nextDataBit p b)
  | last (hp : b.phase = .data) (h : p.bitCycles - 1 ≤ b.cyc) (hi : b.bitIdx = 7) :
      AdvanceCase p draw b (stopEdge p b)
  | stop (hp : b.phase = .stop) (h : p.bitCycles - 1 ≤ b.cyc) : AdvanceCase p draw b (endStop draw b)
  | teardown (hp : b.phase = .teardown) (h : p.teardownCycles - 1 ≤ b.cyc) :
      AdvanceCase p draw b (endTeardown p b)

theorem advance_case {p : Params} {draw : Bool} {b : Block} (hb : b.phase ≠ .idle) :
    AdvanceCase p draw b (advance p draw b) := by
  unfold advance
  by_cases hc : b.cyc < phaseLen p b.phase - 1
  · simp only [hc, if_true]; exact .within hc
  · simp only [hc, if_false]
    unfold phaseEnd
    cases hp : b.phase <;> simp only [hp, phaseLen, Nat.not_lt] at hc ⊢
    · exact absurd hp hb
    · exact .setup hp hc
    · exact .start hp hc
    · by_cases hi : b.bitIdx.val < 7
      · simp only [hi, if_true]; exact .data hp hc hi
      · simp only [hi, if_false]; exact .last hp hc (Fin.ext (by have := b.bitIdx.isLt; simp; omega))
    · exact .stop hp hc
    · exact .teardown hp hc

/-- A busy block never writes `PCMSK`, `PCIE`, `INIT_DONE` or `FAULTS` (R121). -/
theorem AdvanceCase.frame {p : Params} {draw : Bool} {b c : Block} (h : AdvanceCase p draw b c) :
    c.pcmsk = b.pcmsk ∧ c.pcie = b.pcie ∧ c.initDone = b.initDone ∧ c.faults = b.faults := by
  cases h <;> simp [startEdge_eq, firstDataBit_eq, nextDataBit_eq, stopEdge_eq, endStop_eq, endTeardown_eq]

end Sys2Proof.Machine
end

