-- ==== Sys2Proof/Laws/Data.lean ====
section
/-! SUPPORT. Every operation on the block keeps two blocks that differ only in the byte being sent that way (R43). -/

namespace Sys2Proof.Machine

/-- Outside DATA the output bits agree on every pin. -/
theorem Block.SameButByte.out_eq {p : Params} {a b : Block} (h : a.SameButByte p b) (hd : a.phase ≠ .data) :
    a.out = b.out :=
  PinSet.ext_get fun pin => (h.out pin).resolve_left fun hp => hd hp.2

/-- Recording model faults changes nothing the timing depends on. -/
theorem Block.SameButByte.withFaults {p : Params} {a b : Block} (h : a.SameButByte p b) (fs gs : List ModelFault) :
    Block.SameButByte p { a with faults := fs } { b with faults := gs } :=
  ⟨h.1, h.2, h.3, h.4, h.5, h.6, h.7, h.8, h.9, h.10, h.11, h.12⟩

theorem Block.SameButByte.setGie {p : Params} {a b : Block} (h : a.SameButByte p b) (g : Bool) :
    (a.setGie g).SameButByte p (b.setGie g) :=
  ⟨h.1, h.2, h.3, h.4, h.5, h.6, h.7, h.8, h.9, h.10, rfl, h.12⟩

theorem resetBlock_sameButByte (p : Params) (a b : Block) : (resetBlock p a).SameButByte p (resetBlock p b) := by
  constructor <;> first | rfl | exact fun _ => .inr rfl

theorem initBlock_sameButByte {p : Params} {a b : Block} (h : a.SameButByte p b) :
    (initBlock p a).SameButByte p (initBlock p b) := by
  obtain ⟨a1, a2, a3, -, a5, a6, a7⟩ := initBlock_frame p a
  obtain ⟨b1, b2, b3, -, b5, b6, b7⟩ := initBlock_frame p b
  constructor
  · rw [a1, b1, h.phase]
  · rw [a2, b2, h.cyc]
  · rw [a3, b3, h.bitIdx]
  · rw [a5, b5, h.cs]
  · rw [a6, b6, h.savedGie]
  · rfl
  · exact PinSet.ext_get fun pin => by rw [initBlock_dir, initBlock_dir, h.dir]
  · rw [initBlock_pue, initBlock_pue, h.pue]
  · rw [initBlock_pcmsk, initBlock_pcmsk, h.pcmsk]
  · rw [initBlock_pcie, initBlock_pcie, h.pcie]
  · rw [a7, b7, h.gie]
  · intro pin
    rw [a1, initBlock_out, initBlock_out]
    refine (h.out pin).imp_right fun e => ?_
    split
    · rfl
    · exact e

/-- Two SENDs of any two bytes. -/
theorem sendBlock_sameButByte {p : Params} {a b : Block} (h : a.SameButByte p b) (hi : a.phase = .idle) (v w : Byte) :
    (sendBlock p v a).SameButByte p (sendBlock p w b) := by
  rw [sendBlock_eq, sendBlock_eq]
  refine ⟨rfl, rfl, rfl, h.cs, h.gie, h.initDone, ?_, h.pue, h.pcmsk, h.pcie, h.gie, fun pin => .inr ?_⟩
  · simp [h.dir]
  · simp [h.out_eq (by simp [hi])]

theorem advance_sameButByte {p : Params} {a b : Block} (h : a.SameButByte p b) (hb : a.phase ≠ .idle) (draw : Bool) :
    (advance p draw a).SameButByte p (advance p draw b) := by
  have tx : ∀ (l m : Bool) (pin : Nat), (pin = p.txPin ∨ (a.out.put p.txPin l).get pin = (b.out.put p.txPin m).get pin) := by
    intro l m pin
    by_cases hp : pin = p.txPin
    · exact .inl hp
    · exact .inr (by simpa [PinSet.get_put, hp] using h.out pin)
  have txSame : ∀ (l : Bool) (pin : Nat), (a.out.put p.txPin l).get pin = (b.out.put p.txPin l).get pin := by
    intro l pin
    by_cases hp : pin = p.txPin
    · simp [hp]
    · exact (tx l l pin).resolve_left hp
  have hph := h.phase
  unfold advance
  rw [← h.cyc, ← hph]
  split
  · exact { h with phase := rfl, cyc := rfl }
  · unfold phaseEnd
    rw [← hph]
    cases hp : a.phase with
    | idle => exact absurd hp hb
    | setup =>
      simp only [startEdge_eq]
      exact { h with phase := rfl, cyc := rfl, cs := rfl, gie := rfl, out := fun pin => .inr (txSame _ pin) }
    | start =>
      simp only [firstDataBit_eq]
      exact { h with phase := rfl, cyc := rfl, bitIdx := rfl, out := fun pin => (tx _ _ pin).imp_left fun e => ⟨e, rfl⟩ }
    | data =>
      simp only [← h.bitIdx]
      split
      · simp only [nextDataBit_eq]
        exact { h with
          cyc := rfl, bitIdx := by simp [h.bitIdx]
          out := fun pin => (tx _ _ pin).imp_left fun e => ⟨e, hp⟩ }
      · simp only [stopEdge_eq]
        exact { h with phase := rfl, cyc := rfl, bitIdx := rfl, out := fun pin => .inr (txSame _ pin) }
    | stop =>
      simp only [endStop_eq]
      exact { h with
        phase := rfl, cyc := rfl, cs := rfl, gie := by simp [h.savedGie]
        out := fun pin => .inr (by simp [h.out_eq (by simp [hp])]) }
    | teardown =>
      simp only [endTeardown_eq]
      exact { h with
        phase := rfl, cyc := rfl, bitIdx := rfl, savedGie := rfl
        dir := by simp [h.dir], pue := by simp [h.pue]
        out := fun pin => .inr (by simp [h.out_eq (by simp [hp])]) }

end Sys2Proof.Machine
end

