-- ==== Sys2Proof/Laws/Encoding.lean ====
section
/-! SUPPORT. The fields of a command word as numbers, and what decodes to what (R70–R75). -/

namespace Sys2Proof

theorem opcode_toNat (w : Word) : (opcode w).toNat = w.toNat / 256 := by
  have := w.isLt
  simp [opcode, BitVec.extractLsb'_toNat, Nat.shiftRight_eq_div_pow]
  omega

theorem operand_toNat (w : Word) : (operand w).toNat = w.toNat % 256 := by
  simp [operand, BitVec.extractLsb'_toNat]

theorem encode_send_toNat (v : Byte) : (encode (.send v)).toNat = 0x0200 + v.toNat := by
  have := v.isLt
  rw [encode, BitVec.toNat_or, BitVec.toNat_setWidth, Nat.mod_eq_of_lt (by omega),
    show (0x0200#16).toNat = 2 ^ 8 * 2 from rfl, ← Nat.two_pow_add_eq_or_of_lt this]

theorem opcode_eq_iff (w : Word) (c : Byte) : opcode w = c ↔ w.toNat / 256 = c.toNat := by
  rw [← opcode_toNat, BitVec.toNat_inj]

theorem operand_eq_iff (w : Word) (v : Byte) : operand w = v ↔ w.toNat % 256 = v.toNat := by
  rw [← operand_toNat, BitVec.toNat_inj]

/-- The three answers of the decoder, each by the word's fields (R75). -/
theorem decode_cases (w : Word) :
    (opcode w = 0x01#8 ∧ operand w = 0x00#8 ∧ decode w = .instr .init) ∨
    (opcode w = 0x02#8 ∧ decode w = .instr (.send (operand w))) ∨
    (¬(opcode w = 0x01#8 ∧ operand w = 0x00#8) ∧ opcode w ≠ 0x02#8 ∧ ∃ why, decode w = .illegal why) := by
  unfold decode
  by_cases h1 : opcode w = 0x01#8
  · by_cases h0 : operand w = 0x00#8
    · exact .inl ⟨h1, h0, by simp [h1, h0]⟩
    · exact .inr (.inr ⟨fun h => h0 h.2, by simp [h1], .initOperand (operand w), by simp [h1, h0]⟩)
  · by_cases h2 : opcode w = 0x02#8
    · exact .inr (.inl ⟨h2, by simp [h2]⟩)
    · exact .inr (.inr ⟨fun h => h1 h.1, h2, .reservedOpcode (opcode w), by simp [h1, h2]⟩)

/-- A word that decodes is the encoding of what it decodes to. -/
theorem encode_toNat_of_decode {w : Word} {i : Instr} (h : decode w = .instr i) :
    (encode i).toNat = w.toNat := by
  rcases decode_cases w with ⟨h1, h0, hd⟩ | ⟨h2, hd⟩ | ⟨-, -, why, hd⟩
  · obtain rfl : i = .init := by simpa [hd] using h.symm
    rw [opcode_eq_iff] at h1
    rw [operand_eq_iff] at h0
    simp [encode] at *
    omega
  · obtain rfl : i = .send (operand w) := by simpa [hd] using h.symm
    rw [opcode_eq_iff] at h2
    rw [encode_send_toNat, operand_toNat]
    simp at h2
    omega
  · simp [hd] at h

end Sys2Proof
end

