-- ==== Sys2Proof/Laws/Invariant.lean ====
section
/-! SUPPORT. Every operation on the block keeps its invariant (R22–R24, R41, R42, R119). -/

namespace Sys2Proof.Machine

theorem Block.reset_inv (p : Params) : (Block.reset p).Inv p where
  idle_clear := fun _ => ⟨rfl, rfl, rfl⟩
  cyc_lt := fun h => absurd rfl h
  bitIdx_zero := fun _ => rfl
  cs_iff := by simp [Block.reset]
  cs_gie := fun h => by simp [Block.reset] at h
  tx_driven := fun h => absurd rfl h
  rx_pull := fun h => by simp [Block.reset] at h
  rx_input := fun h => by simp [Block.reset] at h
  tx_high := fun h => by simp [Block.reset] at h
  rx_hook := fun h => by simp [Block.reset] at h
  ports := ⟨p.rstDir.isLt, p.rstOut.isLt, p.rstPue.isLt, p.rstPcmsk.isLt⟩
  faults_sorted := List.Pairwise.nil

/-- Changing `FAULTS` for another canonical set keeps the invariant. -/
theorem Block.Inv.withFaults {p : Params} {b : Block} (h : b.Inv p) {fs : List ModelFault} (hf : FaultsSorted fs) :
    Block.Inv p { b with faults := fs } :=
  { h with faults_sorted := hf }

theorem Block.Inv.raise {p : Params} {b : Block} (h : b.Inv p) (f : ModelFault) : (b.raise f).Inv p :=
  h.withFaults (insertFault_sorted f h.faults_sorted)

theorem resetBlock_inv {p : Params} {b : Block} (h : b.Inv p) : (resetBlock p b).Inv p :=
  (Block.reset_inv p).withFaults h.faults_sorted

/-- A host write of `GIE` lands in IDLE, outside the critical section (R113). -/
theorem Block.Inv.setGie {p : Params} {b : Block} (h : b.Inv p) (hi : b.phase = .idle) (g : Bool) :
    (b.setGie g).Inv p :=
  { h with
    cs_gie := fun hc => by simpa [hi] using (h.cs_iff.mp hc)
    tx_driven := fun hb => absurd hi hb }

theorem initBlock_inv {p : Params} (hp : p.Valid) {b : Block} (h : b.Inv p) (hi : b.phase = .idle) :
    (initBlock p b).Inv p := by
  obtain ⟨fp, fc, fb, ft, fs, fg, fi⟩ := initBlock_frame p b
  have hne : p.wiring = .dual → p.rxPin ≠ p.txPin := fun hd => (hp.2.2.2.1 hd).symm
  constructor
  · intro _; rw [fc, ft, fg]; exact h.idle_clear hi
  · intro hb; exact absurd (fp.trans hi) hb
  · intro hb; rw [fb]; exact h.bitIdx_zero (by simp [hi])
  · rw [fs, fp]; exact h.cs_iff
  · rw [fs, fi]; exact h.cs_gie
  · intro hb; exact absurd (fp.trans hi) hb
  · intro _; simp [initBlock_pue]
  · intro _ _
    rw [initBlock_dir]
    by_cases hd : p.wiring = .dual
    · simp [hne hd]
    · simp [hd]
  · intro _ hd
    exact ⟨by simp [initBlock_dir, hd], fun _ => by simp [initBlock_out, hd]⟩
  · intro _ hr
    simp [initBlock_pcmsk, initBlock_pcie, hr]
  · exact initBlock_ports hp h.ports
  · rw [initBlock_faults]
    split
    · exact insertFault_sorted _ h.faults_sorted
    · exact h.faults_sorted

theorem sendBlock_inv {p : Params} (hp : p.Valid) {b : Block} (h : b.Inv p) (hi : b.phase = .idle) (v : Byte) :
    (sendBlock p v b).Inv p := by
  obtain ⟨⟨-, hS, -⟩, ⟨ht, -⟩, -, hd, -⟩ := hp
  rw [Nat.succ_le_iff] at hS
  have hcs : b.cs = false := by
    cases hc : b.cs with
    | false => rfl
    | true => simpa [hi] using h.cs_iff.mp hc
  rw [sendBlock_eq]
  constructor
  · simp
  · intro _; simpa [phaseLen] using hS
  · simp
  · simp [hcs]
  · simp [hcs]
  · simp [phaseBit]
  · exact h.rx_pull
  · intro hdone hw
    have hw : p.wiring = .dual := by simpa using hw
    simpa [PinSet.get_put, Ne.symm (hd hw)] using h.rx_input hdone (.inl hw)
  · simp
  · exact h.rx_hook
  · exact ⟨PinSet.put_lt _ h.ports.1 ht, PinSet.put_lt _ h.ports.2.1 ht, h.ports.2.2⟩
  · show FaultsSorted (if b.initDone then b.faults else insertFault _ b.faults)
    split
    · exact h.faults_sorted
    · exact insertFault_sorted _ h.faults_sorted

theorem advance_inv {p : Params} (hp : p.Valid) {b : Block} (h : b.Inv p) (hb : b.phase ≠ .idle) (draw : Bool) :
    (advance p draw b).Inv p := by
  obtain ⟨⟨hB, -, hT⟩, ⟨ht, -⟩, hsingle, -, -⟩ := hp
  rw [Nat.succ_le_iff] at hB hT
  have ports := h.ports
  have txdir := (h.tx_driven hb).1
  have txout := (h.tx_driven hb).2
  have cyc := h.cyc_lt hb
  have hcase := advance_case (p := p) (draw := draw) hb
  generalize advance p draw b = c at hcase ⊢
  cases hcase with
  | within hc =>
    exact { h with
      idle_clear := fun hi => absurd hi hb
      cyc_lt := fun _ => by show b.cyc + 1 < phaseLen p b.phase; omega
      tx_driven := fun _ => h.tx_driven hb }
  | setup hph _ =>
    rw [startEdge_eq]
    exact { h with
      idle_clear := by simp
      cyc_lt := fun _ => by simpa [phaseLen] using hB
      bitIdx_zero := fun _ => h.bitIdx_zero (by simp [hph])
      cs_iff := by simp
      cs_gie := by simp
      tx_driven := fun _ => by simp [txdir, phaseBit]
      rx_input := fun hd hw => h.rx_input hd (.inl (by simpa using hw))
      tx_high := fun _ _ => by simp [txdir]
      ports := ⟨ports.1, PinSet.put_lt _ ports.2.1 ht, ports.2.2⟩ }
  | start hph _ =>
    rw [firstDataBit_eq]
    exact { h with
      idle_clear := by simp
      cyc_lt := fun _ => by simpa [phaseLen] using hB
      bitIdx_zero := by simp
      cs_iff := by simp [h.cs_iff, hph]
      tx_driven := fun _ => by simp [txdir, phaseBit]
      rx_input := fun hd hw => h.rx_input hd (.inl (by simpa using hw))
      tx_high := fun _ _ => by simp [txdir]
      ports := ⟨ports.1, PinSet.put_lt _ ports.2.1 ht, ports.2.2⟩ }
  | data hph _ hi =>
    rw [nextDataBit_eq]
    exact { h with
      idle_clear := by simp [hph]
      cyc_lt := fun _ => by simpa [phaseLen, hph] using hB
      bitIdx_zero := by simp [hph]
      tx_driven := fun _ => by simp [txdir, phaseBit, hph, bitIdx_succ_val hi]
      tx_high := fun _ _ => by simp [txdir, hph]
      ports := ⟨ports.1, PinSet.put_lt _ ports.2.1 ht, ports.2.2⟩ }
  | last hph _ hi =>
    rw [stopEdge_eq]
    exact { h with
      idle_clear := by simp
      cyc_lt := fun _ => by simpa [phaseLen] using hB
      bitIdx_zero := by simp
      cs_iff := by simp [h.cs_iff, hph]
      tx_driven := fun _ => by simp [txdir, phaseBit]
      rx_input := fun hd hw => h.rx_input hd (.inl (by simpa using hw))
      tx_high := fun _ _ => by simp [txdir]
      ports := ⟨ports.1, PinSet.put_lt _ ports.2.1 ht, ports.2.2⟩ }
  | stop hph _ =>
    rw [endStop_eq]
    exact { h with
      idle_clear := by simp
      cyc_lt := fun _ => by simpa [phaseLen] using hT
      bitIdx_zero := fun _ => h.bitIdx_zero (by simp [hph])
      cs_iff := by simp
      cs_gie := by simp
      tx_driven := fun _ => by simpa [txdir, phaseBit, hph] using txout
      rx_input := fun hd hw => h.rx_input hd (.inl (by simpa using hw))
      tx_high := fun _ _ => by simp [txdir] }
  | teardown hph _ =>
    have hcs : b.cs = false := by
      cases hc : b.cs with
      | false => rfl
      | true => simpa [hph] using h.cs_iff.mp hc
    have txout : b.out.get p.txPin = true := by simpa [phaseBit, hph] using txout
    rw [endTeardown_eq]
    constructor
    · simp
    · simp
    · simp
    · simp [hcs]
    · simp [hcs]
    · simp
    · intro hd
      have := h.rx_pull hd
      by_cases hw : p.wiring = .single
      · simp [hw, hsingle hw]
      · simpa [hw] using this
    · intro hd _
      by_cases hw : p.wiring = .single
      · simp [hw, hsingle hw]
      · have hw' : p.wiring = .dual := by cases h' : p.wiring <;> simp_all
        simpa [hw] using h.rx_input hd (.inl hw')
    · intro hd hw
      simpa [hw, txout] using txdir
    · exact h.rx_hook
    · refine ⟨?_, ports.2.1, ?_, ports.2.2.2⟩
      · show (if p.wiring = .single then _ else _ : PinSet).bits < _
        split
        · exact PinSet.put_lt _ ports.1 ht
        · exact ports.1
      · show (if p.wiring = .single then _ else _ : PinSet).bits < _
        split
        · exact PinSet.put_lt _ ports.2.2.1 ht
        · exact ports.2.2.1
    · exact h.faults_sorted

/-- The two commands, in IDLE. -/
theorem commandBlock_inv {p : Params} (hp : p.Valid) {b : Block} (h : b.Inv p) (hi : b.phase = .idle) (i : Instr) :
    (commandBlock p i b).Inv p := by
  cases i with
  | init => exact initBlock_inv hp h hi
  | send v => exact sendBlock_inv hp h hi v

end Sys2Proof.Machine
end

