-- ==== Sys2Proof/Laws/Frame.lean ====
section
/-! SUPPORT. Where a block stands in a frame, and what one live cycle does there (R101–R111). -/

namespace Sys2Proof.Machine

/-- The block is in cycle j of the pre-idle, SETUP, of a frame of v (R101, R102). -/
structure InSetup (p : Params) (v : Byte) (j : Nat) (b : Block) : Prop where
  phase : b.phase = .setup
  cyc : b.cyc = j
  lt : j < p.setupCycles
  byte : b.txByte = v
  dir : b.dir.get p.txPin = true
  out : b.out.get p.txPin = true

/-- The phase of slot k of a frame: START, DATA with its bit index, STOP (R76, R103). -/
def SlotPhase (k : Nat) (b : Block) : Prop :=
  (k = 0 ∧ b.phase = .start) ∨ (1 ≤ k ∧ k ≤ 8 ∧ b.phase = .data ∧ b.bitIdx.val = k - 1) ∨
    (k = 9 ∧ b.phase = .stop)

/-- The block is in cycle j of slot k of a frame of v, inside the critical section (R108). -/
structure InSlot (p : Params) (v : Byte) (k j : Nat) (b : Block) : Prop where
  phase : SlotPhase k b
  cyc : b.cyc = j
  lt : j < p.bitCycles
  byte : b.txByte = v
  cs : b.cs = true
  gie : b.gie = false
  dir : b.dir.get p.txPin = true
  out : b.out.get p.txPin = slotBit v k

theorem drive_of_get {b : Block} {pin : Nat} {l : Bool} (hd : b.dir.get pin = true) (ho : b.out.get pin = l) :
    b.drive pin = .level (levelOf l) := by simp [Block.drive, hd, ho]

theorem InSlot.drive {p : Params} {v : Byte} {k j : Nat} {b : Block} (h : InSlot p v k j b) :
    b.drive p.txPin = .level (slotLevel v k) := drive_of_get h.dir h.out

theorem InSlot.busy {p : Params} {v : Byte} {k j : Nat} {b : Block} (h : InSlot p v k j b) : b.phase ≠ .idle := by
  rcases h.phase with ⟨-, hp⟩ | ⟨-, -, hp, -⟩ | ⟨-, hp⟩ <;> simp [hp]

/-- No stall has an effect in a slot (R146, R148). -/
theorem InSlot.stallEff {p : Params} {v : Byte} {k j : Nat} {b : Block} (h : InSlot p v k j b) (stall : Bool) :
    b.stallEff stall = false := by simp [Block.stallEff, h.gie]

theorem InSlot.len {p : Params} {v : Byte} {k j : Nat} {b : Block} (h : InSlot p v k j b) :
    phaseLen p b.phase = p.bitCycles := by
  rcases h.phase with ⟨-, hp⟩ | ⟨-, -, hp, -⟩ | ⟨-, hp⟩ <;> simp [hp, phaseLen]

/-- Inside a slot a live cycle counts one cycle (R102). -/
theorem InSlot.count {p : Params} {v : Byte} {k j : Nat} {b : Block} (h : InSlot p v k j b) (draw : Bool)
    (hj : j + 1 < p.bitCycles) : InSlot p v k (j + 1) (advance p draw b) := by
  have hc : b.cyc < phaseLen p b.phase - 1 := by rw [h.len, h.cyc]; omega
  rw [show advance p draw b = { b with cyc := b.cyc + 1 } by simp [advance, hc]]
  exact { h with cyc := by simp [h.cyc], lt := hj }

/-- At its last cycle a slot other than the stop bit gives way to the next (R105–R107). -/
theorem InSlot.nextSlot {p : Params} {v : Byte} {k j : Nat} {b : Block} (h : InSlot p v k j b) (draw : Bool)
    (hj : j + 1 = p.bitCycles) (hk : k < 9) : InSlot p v (k + 1) 0 (advance p draw b) := by
  have hlt : 0 < p.bitCycles := by omega
  have hc : ¬ b.cyc < phaseLen p b.phase - 1 := by rw [h.len, h.cyc]; omega
  unfold advance
  rw [if_neg hc]
  unfold phaseEnd
  rcases h.phase with ⟨hk0, hp⟩ | ⟨hk1, hk8, hp, hi⟩ | ⟨hk9, hp⟩
  · subst hk0
    simp only [hp]
    rw [firstDataBit_eq]
    exact { h with
      phase := .inr (.inl ⟨by omega, by omega, rfl, rfl⟩), cyc := rfl, lt := hlt
      out := by simp [slotBit, h.byte] }
  · simp only [hp]
    by_cases hlast : b.bitIdx.val < 7
    · rw [if_pos hlast, nextDataBit_eq]
      exact { h with
        phase := .inr (.inl ⟨by omega, by omega, by simp [hp], by
          show (b.bitIdx + 1).val = _; rw [bitIdx_succ_val hlast]; omega⟩)
        cyc := rfl, lt := hlt
        out := by
          have : b.bitIdx.val + 1 = k := by omega
          simp [slotBit, h.byte, this]; omega }
    · rw [if_neg hlast, stopEdge_eq]
      have : k = 8 := by omega
      subst this
      exact { h with
        phase := .inr (.inr ⟨rfl, rfl⟩), cyc := rfl, lt := hlt
        out := by simp [slotBit] }
  · omega

/-- At its last cycle the stop bit ends the critical section (R109). -/
theorem InSlot.endStop {p : Params} {v : Byte} {j : Nat} {b : Block} (h : InSlot p v 9 j b) (draw : Bool)
    (hj : j + 1 = p.bitCycles) :
    (advance p draw b).phase = .teardown ∧ (advance p draw b).cs = false := by
  have hc : ¬ b.cyc < phaseLen p b.phase - 1 := by rw [h.len, h.cyc]; omega
  have hp : b.phase = .stop := by
    rcases h.phase with ⟨hk, -⟩ | ⟨-, hk, -⟩ | ⟨-, hp⟩
    · omega
    · omega
    · exact hp
  unfold advance
  rw [if_neg hc]
  simp [phaseEnd, hp, endStop_eq]

/-- Within SETUP a live cycle counts one cycle (R102). -/
theorem InSetup.count {p : Params} {v : Byte} {j : Nat} {b : Block} (h : InSetup p v j b) (draw : Bool)
    (hj : j + 1 < p.setupCycles) : InSetup p v (j + 1) (advance p draw b) := by
  have hc : b.cyc < phaseLen p b.phase - 1 := by rw [h.phase, h.cyc]; simp only [phaseLen]; omega
  rw [show advance p draw b = { b with cyc := b.cyc + 1 } by simp [advance, hc]]
  exact { h with cyc := by simp [h.cyc], lt := hj }

/-- At its last cycle SETUP gives way to the start bit (R104). -/
theorem InSetup.startEdge {p : Params} (hp : p.Valid) {v : Byte} {j : Nat} {b : Block} (h : InSetup p v j b)
    (draw : Bool) (hj : j + 1 = p.setupCycles) : InSlot p v 0 0 (advance p draw b) := by
  have hc : ¬ b.cyc < phaseLen p b.phase - 1 := by rw [h.phase, h.cyc]; simp only [phaseLen]; omega
  unfold advance
  rw [if_neg hc]
  simp only [phaseEnd, h.phase]
  rw [startEdge_eq]
  exact { h with
    phase := .inl ⟨rfl, rfl⟩, cyc := rfl, lt := hp.1.1, cs := rfl, gie := rfl
    out := by simp [slotBit] }

/-- An accepted SEND begins the pre-idle (R101). -/
theorem InSetup.send {p : Params} (hp : p.Valid) (v : Byte) (b : Block) : InSetup p v 0 (sendBlock p v b) := by
  rw [sendBlock_eq]
  exact ⟨rfl, rfl, hp.1.2.1, rfl, by simp, by simp⟩

end Sys2Proof.Machine
end

