-- ==== Sys2Proof/Laws/PerInstr.lean ====
section
/-! SUPPORT. The per-instruction families: `TableRow` says that a command's word carries the fixed bits of its row of
spec/opcode_table.json, and that this is the row the table gives the word (R71). -/

namespace Sys2Proof.Laws.TableRow

/-- The row of the opcode table with the command's mnemonic. -/
def row : Instr → OpcodeRow
  | .init => { mnemonic := "INIT", word := 0x0100#16, mask := 0xFFFF#16 }
  | .send _ => { mnemonic := "SEND", word := 0x0200#16, mask := 0xFF00#16 }

/-- The command is well-formed, its row stands in the table, and its word is the row's. -/
def Statement (i : Instr) : Prop :=
  i.wf = true ∧ row i ∈ opcodeTable ∧ rowOf (encode i) = some (row i)

theorem init : Statement .init := by
  unfold Statement
  decide

/-- SEND's operand does not reach the row's fixed bits. -/
theorem send_fixed_bits (v : Byte) :
    encode (.send v) &&& 0xFFFF#16 ≠ 0x0100#16 ∧ encode (.send v) &&& 0xFF00#16 = 0x0200#16 := by
  revert v
  decide

theorem send (v : Byte) : Statement (.send v) := by
  obtain ⟨h1, h2⟩ := send_fixed_bits v
  exact ⟨rfl, by simp [row, opcodeTable], by simp [rowOf, opcodeTable, row, h1, h2]⟩

end Sys2Proof.Laws.TableRow
end

