-- ==== Sys2Proof/Laws/Program.lean ====
section
/-! SUPPORT. The host's program (R37, R80) and the environment's inputs, one cycle on. -/

namespace Sys2Proof.Machine

/-! ### The program -/

/-- A request that is not accepted is presented again (R37). -/
theorem present_keepProgram : ∀ {items : List HostItem}, present items ≠ .none →
    present (keepProgram items) = present items
  | [], h => absurd rfl h
  | .wait 0 :: rest, h => present_keepProgram (items := rest) h
  | .wait (_ + 1) :: _, h => absurd rfl h
  | .cmd _ :: _, _ => rfl
  | .setGie _ :: _, _ => rfl

theorem State.request_hold {s : State} (h : s.request ≠ .none) : s.hold.request = s.request :=
  present_keepProgram h

/-- One cycle of a WAIT that is not over. -/
theorem keepProgram_wait (n : Nat) (rest : List HostItem) :
    keepProgram (.wait (n + 1) :: rest) = if n = 0 then rest else .wait n :: rest := rfl

/-- An accepted request leaves the rest of the program, whatever `WAIT 0`s stand before it (R80). -/
theorem serveProgram_request {item : HostItem} (hw : ∀ n, item ≠ .wait n) (rest : List HostItem) (k : Nat) :
    serveProgram (List.replicate k (.wait 0) ++ item :: rest) = rest := by
  induction k with
  | zero =>
    cases item with
    | wait n => exact absurd rfl (hw n)
    | cmd w => rfl
    | setGie g => rfl
  | succ k ih => exact ih

/-! ### The inputs -/

theorem State.now_eq_inputAt (s : State) : s.now = s.inputAt 0 := by
  unfold State.now State.inputAt
  cases s.env <;> simp

theorem State.inputAt_hold (s : State) (n : Nat) : s.hold.inputAt n = s.inputAt (n + 1) := by
  unfold State.inputAt
  cases h : s.env with
  | nil => simp [h, Nat.add_assoc, Nat.add_comm 1 n]
  | cons e es => simp [h, Nat.add_assoc, Nat.add_comm 1 n]

/-- The inputs of a state depend on its clock and its script alone. -/
theorem State.inputAt_congr {s t : State} (hc : s.cycle = t.cycle) (he : s.env = t.env) (n : Nat) :
    s.inputAt n = t.inputAt n := by simp [State.inputAt, hc, he]

/-- No reset for n + 1 cycles is no reset now and none for the n cycles after. -/
theorem noReset_succ {s t : State} {n : Nat} (hc : t.cycle = s.cycle + 1) (he : t.env = s.env.tail) :
    NoReset (n + 1) s ↔ s.now.rst = false ∧ NoReset n t := by
  have shift : ∀ i, t.inputAt i = s.inputAt (i + 1) := fun i => by
    rw [← s.inputAt_hold i]; exact State.inputAt_congr (by simpa using hc) (by simpa using he) i
  constructor
  · intro h
    exact ⟨s.now_eq_inputAt ▸ h 0 (by omega), fun i hi => shift i ▸ h (i + 1) (by omega)⟩
  · rintro ⟨h0, h1⟩ i hi
    cases i with
    | zero => exact s.now_eq_inputAt ▸ h0
    | succ i => exact shift i ▸ h1 i (by omega)

theorem NoReset.mono {s : State} {m n : Nat} (h : NoReset n s) (hmn : m ≤ n) : NoReset m s :=
  fun i hi => h i (by omega)

end Sys2Proof.Machine
end

