-- ==== Sys2Proof/Laws/Step.lean ====
section
/-! SUPPORT. What one step can do, said once (R100, R149), and runs of steps. -/

namespace Sys2Proof.Machine

/-! ### This machine is the one at `Config.configuration` -/

theorem exec_eq_execAt (i : Instr) (s : State) : exec i s = execAt Config.configuration i s := by cases i <;> rfl

theorem step_eq_stepAt (s : State) : step s = stepAt Config.configuration s := by
  have : exec = execAt Config.configuration := by funext i t; exact exec_eq_execAt i t
  unfold step stepAt
  rw [this]

/-! ### The cases of a step -/

/-- Everything one step can do, one case a branch of R100. -/
inductive StepCase (c : Configuration) (s : State) : State → Prop where
  | reset (hr : s.now.rst = true) : StepCase c s (s.afterReset c.params)
  | stall (hr : s.now.rst = false) (hs : s.stalled = true) : StepCase c s s.hold
  | busy (hl : s.Live) (hb : s.block.phase ≠ .idle) : StepCase c s (s.hold.mapBlock (advance c.params s.now.draw))
  | none (hl : s.Live) (hi : s.block.phase = .idle) (hq : s.request = .none) : StepCase c s s.hold
  | setGie (hl : s.Live) (hi : s.block.phase = .idle) (g : Bool) (hq : s.request = .setGie g) :
      StepCase c s (s.serve.mapBlock (Block.setGie g))
  | command (hl : s.Live) (hi : s.block.phase = .idle) (w : Word) (i : Instr) (hq : s.request = .cmd w)
      (hd : decode w = .instr i) : StepCase c s (s.serve.mapBlock (commandBlock c.params i))
  | illegal (hl : s.Live) (hi : s.block.phase = .idle) (w : Word) (why : Illegal) (hq : s.request = .cmd w)
      (hd : decode w = .illegal why) : StepCase c s (s.serve.mapBlock fun b => b.raise (.illegalCommand w))

theorem Block.busy_iff (b : Block) : b.busy = true ↔ b.phase ≠ .idle := by simp [Block.busy]

theorem Block.busy_eq_false_iff (b : Block) : b.busy = false ↔ b.phase = .idle := by simp [Block.busy]

/-- A request is accepted in a live cycle of IDLE (R38). -/
theorem State.accepting_iff (s : State) : s.accepting = true ↔ s.Live ∧ s.block.phase = .idle := by
  simp only [State.accepting, State.cmdReady, State.Live, Bool.and_eq_true, Bool.not_eq_true',
    Block.busy_eq_false_iff]
  tauto

/-- Every step goes on, by one of the cases. -/
theorem stepAt_cases (c : Configuration) (s : State) : ∃ t, stepAt c s = .next t ∧ StepCase c s t := by
  unfold stepAt cycleWith
  by_cases hr : s.now.rst = true
  · exact ⟨_, by simp only [hr, if_true], .reset hr⟩
  by_cases hs : s.stalled = true
  · exact ⟨_, by simp only [hr, hs, if_true, if_false, Bool.false_eq_true], .stall (by simpa using hr) hs⟩
  have hl : s.Live := ⟨by simpa using hr, by simpa using hs⟩
  by_cases hb : s.block.busy = true
  · exact ⟨_, by simp only [hr, hs, hb, if_true, if_false, Bool.false_eq_true], .busy hl (s.block.busy_iff.mp hb)⟩
  have hi : s.block.phase = .idle := s.block.busy_eq_false_iff.mp (by simpa using hb)
  simp only [hr, hs, hb, if_false, Bool.false_eq_true]
  unfold serveRequest
  cases hq : s.request with
  | none => exact ⟨_, rfl, .none hl hi hq⟩
  | setGie g => exact ⟨_, rfl, .setGie hl hi g hq⟩
  | cmd w =>
    cases hd : decode w with
    | instr i => exact ⟨_, by simp only [hd]; rfl, .command hl hi w i hq hd⟩
    | illegal why => exact ⟨_, by simp only [hd], .illegal hl hi w why hq hd⟩

/-- The inversion of a step. -/
theorem stepCase_of_next {c : Configuration} {s t : State} (h : stepAt c s = .next t) : StepCase c s t := by
  obtain ⟨u, hu, hc⟩ := stepAt_cases c s
  cases hu.symm.trans h
  exact hc

/-- Each case is reached whenever its conditions hold. -/
theorem StepCase.next {c : Configuration} {s t : State} (h : StepCase c s t) : stepAt c s = .next t := by
  cases h with
  | reset hr => simp [stepAt, cycleWith, hr]
  | stall hr hs => simp [stepAt, cycleWith, hr, hs]
  | busy hl hb => simp [stepAt, cycleWith, hl.1, hl.2, (s.block.busy_iff).mpr hb]
  | none hl hi hq => simp [stepAt, cycleWith, hl.1, hl.2, (s.block.busy_eq_false_iff).mpr hi, serveRequest, hq]
  | setGie hl hi g hq => simp [stepAt, cycleWith, hl.1, hl.2, (s.block.busy_eq_false_iff).mpr hi, serveRequest, hq]
  | command hl hi w i hq hd =>
    simp [stepAt, cycleWith, hl.1, hl.2, (s.block.busy_eq_false_iff).mpr hi, serveRequest, hq, hd, execAt]
  | illegal hl hi w why hq hd =>
    simp [stepAt, cycleWith, hl.1, hl.2, (s.block.busy_eq_false_iff).mpr hi, serveRequest, hq, hd]

/-- Every step moves the clock and the script on by one cycle. -/
theorem StepCase.clock {c : Configuration} {s t : State} (h : StepCase c s t) :
    t.cycle = s.cycle + 1 ∧ t.env = s.env.tail := by
  cases h <;> exact ⟨rfl, rfl⟩

/-- A cycle in which the host presents nothing, whatever happens in it, counts one cycle of a WAIT (R80; log 6, log 7). -/
theorem StepCase.program_of_none {c : Configuration} {s t : State} (h : StepCase c s t) (hq : s.request = .none) :
    t.program = keepProgram s.program := by
  cases h with
  | reset => rfl
  | stall => rfl
  | busy => rfl
  | none => rfl
  | setGie hl hi g h => simp [hq] at h
  | command hl hi w i h hd => simp [hq] at h
  | illegal hl hi w why h hd => simp [hq] at h

/-! ### Runs -/

/-- The state one cycle on: every step goes on. -/
def nextAt (c : Configuration) (s : State) : State :=
  match stepAt c s with
  | .next t => t
  | .fault _ => s
  | .refused _ => s

theorem stepAt_eq (c : Configuration) (s : State) : stepAt c s = .next (nextAt c s) := by
  obtain ⟨t, ht, -⟩ := stepAt_cases c s
  simp [nextAt, ht]

theorem nextAt_eq {c : Configuration} {s t : State} (h : StepCase c s t) : nextAt c s = t := by
  simp [nextAt, h.next]

theorem nextAt_case (c : Configuration) (s : State) : StepCase c s (nextAt c s) := stepCase_of_next (stepAt_eq c s)

@[simp] theorem runAt_zero (c : Configuration) (s : State) : runAt c 0 s = .next s := rfl

/-- The first cycle of a run of any machine. -/
theorem run_succ_of_next {M : Host.Core} {s t : M.State} (n : Nat) (h : M.step s = .next t) :
    M.run (n + 1) s = M.run n t := by
  rw [Host.Core.run.eq_def]
  simp only [h]

theorem runAt_succ (c : Configuration) (n : Nat) (s : State) : runAt c (n + 1) s = runAt c n (nextAt c s) :=
  run_succ_of_next (M := coreAt c) n (stepAt_eq c s)

/-- A run of n cycles always has a next state: n times the state one cycle on. -/
theorem runAt_eq (c : Configuration) (n : Nat) (s : State) : runAt c n s = .next ((nextAt c)^[n] s) := by
  induction n generalizing s with
  | zero => rfl
  | succ n ih => rw [runAt_succ, ih, Function.iterate_succ_apply]

theorem runAt_add (c : Configuration) (m n : Nat) (s : State) :
    runAt c (m + n) s = runAt c n ((nextAt c)^[m] s) := by
  rw [runAt_eq, runAt_eq, Nat.add_comm, Function.iterate_add_apply]

theorem noReset_next {c : Configuration} {s : State} {n : Nat} :
    NoReset (n + 1) s ↔ s.now.rst = false ∧ NoReset n (nextAt c s) :=
  noReset_succ (nextAt_case c s).clock.1 (nextAt_case c s).clock.2

/-- No reset for m + n cycles is none for n cycles from the m-th. -/
theorem NoReset.after {c : Configuration} {m n : Nat} {s : State} (h : NoReset (m + n) s) :
    NoReset n ((nextAt c)^[m] s) := by
  induction m generalizing s with
  | zero => simpa using h
  | succ m ih =>
    rw [Function.iterate_succ_apply]
    exact ih ((noReset_next (c := c)).mp (by rwa [show m + 1 + n = m + n + 1 by omega] at h)).2

/-! ### Counting stalls -/

theorem stallsIn_succ (c : Configuration) (n : Nat) (s : State) :
    stallsIn c (n + 1) s = (if s.stalled then 1 else 0) + stallsIn c n (nextAt c s) := by
  simp [stallsIn, stepAt_eq]

theorem stallsIn_le (c : Configuration) (n : Nat) (s : State) : stallsIn c n s ≤ n := by
  induction n generalizing s with
  | zero => simp [stallsIn]
  | succ n ih =>
    rw [stallsIn_succ]
    have := ih (nextAt c s)
    split <;> omega

/-- A cycle that is not stalled is not counted. -/
theorem stallsIn_lt {c : Configuration} {n : Nat} {s : State} (hs : s.stalled = false) (hn : 0 < n) :
    stallsIn c n s < n := by
  obtain ⟨m, rfl⟩ : ∃ m, n = m + 1 := ⟨n - 1, by omega⟩
  rw [stallsIn_succ]
  have := stallsIn_le c m (nextAt c s)
  simp [hs]
  omega

end Sys2Proof.Machine
end

