-- ==== Sys2Proof/Tests/Slice0.lean ====
section
/-! SUPPORT. The model's own tests: what the checks refuse, the vectors of 95_test_vectors.md one step at a time, and for
every statement with hypotheses a state that meets them all (named witness_<statement>). -/

namespace Sys2Proof.Machine.Tests

/-! ### Well-formedness: an ill-formed term for each check -/

theorem test_imm_dec_refused : (Imm.dec 256).wf = false ∧ (Imm.dec 255).wf = true := by decide

theorem test_imm_hex_refused : (Imm.hex 0x100).wf = false ∧ (Imm.hex 0xFF).wf = true := by decide

theorem test_imm_chr_refused : (Imm.chr 'é').wf = false ∧ (Imm.chr 'A').wf = true := by decide

theorem test_line_refused :
    assemble (.send (.dec 256)) = none ∧ assemble (.setGie 2) = none ∧ assemble (.word 0x10000) = none := by decide

theorem test_line_assembled :
    assemble (.send (.chr 'A')) = some (.cmd 0x0241#16) ∧ assemble (.setGie 1) = some (.setGie true) := by decide

/-- Two dedicated pins as in 95_test_vectors.md 2.5: tx = 1, rx = 0, B = 3, S = 2, T = 2. -/
def dualP : Params :=
  { wiring := .dual, nPins := 8, txPin := 1, rxPin := 0, bitCycles := 3, setupCycles := 2, teardownCycles := 2 }

/-- The same with one shared pin, tx = rx = 0. -/
def singleP : Params := { dualP with wiring := .single, txPin := 0, rxIrq := true }

theorem dualP_valid : dualP.Valid := by decide

theorem singleP_valid : singleP.Valid := by decide

/-- The configuration of dualP. -/
def dualC : Configuration := { params := dualP, valid := dualP_valid }

/-- R10: invalid parameters have no machine. -/
theorem test_no_machine_for_invalid : machine? { dualP with bitCycles := 0 } = none := rfl

/-- R10, one ill-formed configuration for each of its clauses. -/
theorem test_invalid_configurations_refused :
    Configuration.build? { dualP with bitCycles := 0 } = none ∧
    Configuration.build? { dualP with setupCycles := 0 } = none ∧
    Configuration.build? { dualP with teardownCycles := 0 } = none ∧
    Configuration.build? { dualP with txPin := 8 } = none ∧
    Configuration.build? { dualP with rxPin := 8 } = none ∧
    Configuration.build? { dualP with rxPin := 1 } = none ∧
    Configuration.build? { singleP with rxPin := 1 } = none := by decide

/-! ### Decoding, bit by bit (R71) -/

theorem test_decode_init : decode 0b00000001_00000000#16 = .instr .init := by decide

theorem test_decode_send : decode 0b00000010_10100101#16 = .instr (.send 0xA5#8) := by decide

theorem test_decode_illegal : decode 0b00010000_00000010#16 = .illegal (.reservedOpcode 0x10#8) := by decide

theorem test_decodeTableWord :
    decodeTableWord 16 0x0100 = some .init ∧ decodeTableWord 16 0x0255 = some (.send 0x55#8) ∧
      decodeTableWord 16 0x0101 = none := by decide

/-- step runs a placed word as the first command after reset. -/
theorem test_first_command_runs :
    step (State.reset.withFetchWord 16 0x0255) =
      exec (.send 0x55#8) (State.reset.withFetchWord 16 0x0255).serve := rfl

/-! ### INIT and SEND (95_test_vectors.md 2.2, 2.8) -/

/-- Premise Z1 with n pins: every platform bit 1. -/
def z1 (p : Params) : Block :=
  { Block.reset p with dir := ⟨0xFF⟩, out := ⟨0xFF⟩, pue := ⟨0xFF⟩, pcmsk := ⟨0xFF⟩, pcie := true, gie := true }

/-- 2.2: `TTX8N1-D-` under Z1. -/
theorem test_init_dual_z1 :
    initBlock dualP (z1 dualP) = { z1 dualP with dir := ⟨0xFE⟩, pue := ⟨0xFE⟩, initDone := true } ∧
      (initBlock dualP (z1 dualP)).drive 1 = .level .high := by decide

/-- 2.2: `TTX8N1-SI` under Z0. -/
theorem test_init_single_z0 :
    initBlock singleP (Block.reset singleP) =
        { Block.reset singleP with pcmsk := ⟨1⟩, pcie := true, initDone := true } ∧
      (initBlock singleP (Block.reset singleP)).drive 0 = .z := by decide

/-- 2.8: SEND 0x41 before INIT is recorded and emitted. -/
theorem test_send_before_init :
    let b := sendBlock dualP 0x41#8 (z1 dualP)
    (b.faults, b.phase, b.txByte, b.savedGie, b.drive 1) =
      ([.notInitialized 0x41#8], .setup, 0x41#8, true, .level .high) := by decide

/-- R101, single-pin corner case: the shared pin becomes an output at high. -/
theorem test_send_single :
    let b := sendBlock singleP 0x00#8 (initBlock singleP (Block.reset singleP))
    (b.faults, b.dir, b.out, b.drive 0) = ([], ⟨1⟩, ⟨1⟩, .level .high) := by decide

/-! ### The phase-end steps of 95_test_vectors.md 2.5 -/

/-- A row's "state before": PHASE, CYC, BITIDX, GIE, SAVED_GIE, CS with TXBYTE = 0x5A and the pin driven. -/
def before (phase : Phase) (cyc : Nat) (bitIdx : Fin 8) (gie savedGie cs : Bool) : Block :=
  { Block.reset dualP with
    phase := phase, cyc := cyc, bitIdx := bitIdx, txByte := 0x5A#8, gie := gie, savedGie := savedGie, cs := cs
    initDone := true, dir := ⟨0b11⟩, out := ⟨0b11⟩ }

/-- A row's "state after", with CS and OUT of one pin. -/
structure Row where
  phase : Phase
  cyc : Nat
  bitIdx : Fin 8
  txByte : Byte
  gie : Bool
  savedGie : Bool
  cs : Bool
  out : Bool
  deriving DecidableEq, Repr

/-- The row a block shows. -/
def after (b : Block) (tx : Nat) : Row :=
  ⟨b.phase, b.cyc, b.bitIdx, b.txByte, b.gie, b.savedGie, b.cs, b.out.get tx⟩

theorem test_setup_counts :
    after (advance dualP true (before .setup 0 0 true true false)) 1 =
      ⟨.setup, 1, 0, 0x5A#8, true, true, false, true⟩ := by decide

theorem test_start_edge :
    after (advance dualP true (before .setup 1 0 true true false)) 1 =
      ⟨.start, 0, 0, 0x5A#8, false, true, true, false⟩ := by decide

theorem test_first_data_bit :
    after (advance dualP true (before .start 2 0 false true true)) 1 =
      ⟨.data, 0, 0, 0x5A#8, false, true, true, false⟩ := by decide

theorem test_second_data_bit :
    after (advance dualP true (before .data 2 0 false true true)) 1 =
      ⟨.data, 0, 1, 0x5A#8, false, true, true, true⟩ := by decide

theorem test_last_data_bit :
    after (advance dualP true (before .data 2 6 false true true)) 1 =
      ⟨.data, 0, 7, 0x5A#8, false, true, true, false⟩ := by decide

theorem test_stop_edge :
    after (advance dualP true (before .data 2 7 false true true)) 1 =
      ⟨.stop, 0, 0, 0x5A#8, false, true, true, true⟩ := by decide

theorem test_end_of_stop :
    after (advance dualP false (before .stop 2 0 false true true)) 1 =
      ⟨.teardown, 0, 0, 0x5A#8, true, true, false, true⟩ := by decide

/-- R110: both draws are admitted when GIE was 0 at acceptance. -/
theorem test_end_of_stop_draw : ∀ d : Bool,
    after (advance dualP d (before .stop 2 0 false false true)) 1 =
      ⟨.teardown, 0, 0, 0x5A#8, d, false, false, true⟩ := by decide

theorem test_end_of_teardown_dual :
    let b := advance dualP true (before .teardown 1 0 true true false)
    after b 1 = ⟨.idle, 0, 0, 0x00#8, true, false, false, true⟩ ∧ b.drive 1 = .level .high := by decide

theorem test_end_of_teardown_single :
    let b := advance singleP true (before .teardown 1 0 true true false)
    after b 0 = ⟨.idle, 0, 0, 0x00#8, true, false, false, true⟩ ∧
      b.dir.get 0 = false ∧ b.pue.get 0 = false ∧ b.drive 0 = .z := by decide

/-! ### Stalls, requests, reset (95_test_vectors.md 2.6–2.8, R170) -/

/-- A cycle with no reset and no stall. -/
def quiet : EnvInput := { rst := false, stall := false, ext := ⟨0⟩, draw := false }

/-- A state whose next inputs are given. -/
def st (b : Block) (program : List HostItem) (env : List EnvInput) : State :=
  { block := b, cycle := 0, program := program, env := env }

/-- The block after a step of the machine of a configuration. -/
def blockAfter (c : Configuration) (s : State) : Option Block :=
  match stepAt c s with
  | .next t => some t.block
  | .fault _ => none
  | .refused _ => none

/-- 2.6: a stalled idle cycle holds the request; with GIE = 0 the stall is ignored. -/
theorem test_stall_needs_gie :
    (stepAt dualC (st (z1 dualP) [.cmd 0x0200#16] [{ quiet with stall := true }]) =
      .next { st (z1 dualP) [.cmd 0x0200#16] [] with cycle := 1 }) ∧
    (blockAfter dualC (st (Block.reset dualP) [.cmd 0x0200#16] [{ quiet with stall := true }])).map Block.phase =
      some .setup := ⟨rfl, by decide⟩

/-- 2.6: in STOP a stall is ignored and the critical section ends. -/
theorem test_stall_ignored_in_stop :
    (blockAfter dualC (st (before .stop 2 0 false true true) [] [{ quiet with stall := true }])).map Block.cs =
      some false := by decide

/-- 2.8: the word 0x0300 in IDLE is recorded and changes nothing else. -/
theorem test_illegal_word :
    blockAfter dualC (st (z1 dualP) [.cmd 0x0300#16] [quiet]) =
      some { z1 dualP with faults := [.illegalCommand 0x0300#16] } := by decide

/-- R170: a reset keeps FAULTS and nothing else. -/
theorem test_reset_keeps_faults :
    blockAfter dualC (st { z1 dualP with faults := [.initRepeated] } [] [{ quiet with rst := true }]) =
      some { Block.reset dualP with faults := [.initRepeated] } := by decide

/-- FAULTS is a set: order of recording and repetition do not matter. -/
theorem test_faults_are_a_set :
    insertFault (.illegalCommand 3#16) (insertFault .initRepeated [.illegalCommand 3#16]) =
      insertFault .initRepeated [.illegalCommand 3#16] := by decide

/-! ### Witnesses: states that meet the hypotheses of the statements -/

/-- An idle block with interrupts on. -/
def idleB : Block := { Block.reset Config.params with gie := true }

/-- Idle, live, INIT presented. -/
def initS : State := st idleB [.cmd 0x0100#16] [quiet]

/-- Idle, live, SEND 0x55 presented. -/
def sendS : State := st idleB [.cmd 0x0255#16] [quiet]

/-- A busy block of the given phase in the last of len cycles. -/
def busyB (phase : Phase) (len : Nat) (bitIdx : Fin 8) (savedGie : Bool) : Block :=
  { idleB with phase := phase, cyc := len - 1, bitIdx := bitIdx, savedGie := savedGie }

theorem witness_InitTakesOneCycle : initS.accepting = true ∧ initS.request = .cmd (encode .init) := ⟨rfl, rfl⟩

/-- The next cycle of R91's last clause, with and without a stall. -/
theorem witness_InitTakesOneCycle_next :
    (∃ t, step (st idleB [.cmd 0x0100#16] [quiet, quiet]) = .next t ∧ t.now.rst = false ∧ t.stalled = false) ∧
    (∃ t, step (st idleB [.cmd 0x0100#16] [quiet, { quiet with stall := true }]) = .next t ∧ t.stalled = true) := by
  have g : (initBlock Config.params idleB).gie = true := (initBlock_frame _ _).2.2.2.2.2.2
  have c : (initBlock Config.params idleB).cs = false := (initBlock_frame _ _).2.2.2.2.1
  refine ⟨⟨_, rfl, rfl, rfl⟩, ⟨_, rfl, ?_⟩⟩
  show (true && (initBlock Config.params idleB).gie && !(initBlock Config.params idleB).cs) = true
  rw [g, c]
  rfl

theorem witness_RepeatedInitChangesNoPin :
    (st { idleB with initDone := true } [] []).block.initDone = true ∧ ∃ t, exec .init initS = .next t := ⟨rfl, _, rfl⟩

theorem noReset_replicate (n : Nat) (b : Block) (program : List HostItem) :
    NoReset n (st b program (List.replicate n quiet)) := by
  intro i hi
  simp [State.inputAt, st, hi, quiet]

theorem witness_InitThenNothingStaysIdle :
    let s := st (Block.reset dualP) [.cmd 0x0100#16, .wait 2, .cmd 0x0255#16] (List.replicate 3 quiet)
    s.block.Inv dualC.params ∧ s.accepting = true ∧ s.request = .cmd (encode .init) ∧
      (∀ j, j < 2 → present (keepProgram^[j] (serveProgram s.program)) = .none) ∧ NoReset (2 + 1) s :=
  ⟨Block.reset_inv _, rfl, rfl, by decide, noReset_replicate 3 _ _⟩

theorem witness_SendBeforeInitStillRuns : sendS.block.initDone = false := rfl

theorem witness_SendBeforeInitStillRuns_run (t : State) : runAt Config.configuration 0 t = .next t := rfl

/-- A block of the machine dualP after INIT. -/
def dualB : Block := initBlock dualP (Block.reset dualP)

theorem dualB_inv : dualB.Inv dualP := initBlock_inv dualP_valid (Block.reset_inv _) rfl

theorem witness_DualSendKeepsThePins :
    dualC.params.wiring = .dual ∧ dualB.Inv dualC.params ∧ dualB.initDone = true ∧ dualB.phase = .idle :=
  ⟨rfl, dualB_inv, rfl, rfl⟩

theorem witness_StepRunsTheDecodedCommand :
    sendS.accepting = true ∧ sendS.request = .cmd 0x0255#16 ∧ decode 0x0255#16 = .instr (.send 0x55#8) ∧
      sendS.program = .cmd 0x0255#16 :: [] := ⟨rfl, rfl, by decide, rfl⟩

theorem illegal_word_presented (w : Word) :
    (st idleB [.cmd w] [quiet]).accepting = true ∧ (st idleB [.cmd w] [quiet]).request = .cmd w := ⟨rfl, rfl⟩

/-- Illegal words at both ends of each range of R73, each presented as `illegal_word_presented` says. -/
theorem witness_IllegalWordOnlyRecorded :
    [0x0000#16, 0x00FF#16, 0x0101#16, 0x01FF#16, 0x0300#16, 0xFFFF#16].all
      (fun w => w != 0x0100#16 && !(decide (0x0200 ≤ w.toNat) && decide (w.toNat ≤ 0x02FF))) = true := by decide

theorem witness_RequestServedExactlyWhenAccepted :
    (sendS.request ≠ .none ∧ sendS.accepting = true) ∧
    (let s := st idleB [.cmd 0x0255#16] [{ quiet with stall := true }]
     s.request ≠ .none ∧ s.accepting = false) := by
  refine ⟨⟨?_, rfl⟩, ?_, rfl⟩ <;> exact Request.noConfusion

theorem witness_ResetEventSetsEveryField : (st idleB [] [{ quiet with rst := true }]).now.rst = true := rfl

theorem witness_LaunchState :
    let s : State := { State.reset with program := [], env := [{ quiet with rst := true }, quiet] }
    (∀ i, i < 1 → ∃ u : State, runAt Config.configuration i s = .next u ∧ (u.now.rst = true ∨ u.stalled = true)) ∧
      ∃ t : State, runAt Config.configuration 1 s = .next t ∧ t.now.rst = false ∧ t.stalled = false := by
  refine ⟨fun i hi => ?_, _, rfl, rfl, rfl⟩
  obtain rfl : i = 0 := by omega
  exact ⟨_, rfl, .inl rfl⟩

theorem witness_IdleOrStalledCycleHolds :
    (let s := st idleB [] [quiet]
     s.now.rst = false ∧ s.block.phase = .idle ∧ s.request = .none) ∧
    (let s := st idleB [.cmd 0x0255#16] [{ quiet with stall := true }]
     s.now.rst = false ∧ s.stalled = true) := ⟨⟨rfl, rfl, rfl⟩, rfl, rfl⟩

theorem witness_RequestsWhileBusyAreHeld :
    (let s := st (busyB .data 1 0 true) [.setGie true] [quiet]
     s.block.phase ≠ .idle ∧ s.request ≠ .none) ∧
    (sendS.now.rst = false ∧ sendS.block.phase = .idle ∧ sendS.stalled = false ∧ sendS.request ≠ .none) := by
  refine ⟨⟨?_, ?_⟩, rfl, rfl, rfl, ?_⟩ <;> first | exact Phase.noConfusion | exact Request.noConfusion

theorem witness_SetGieWritesTheEnable :
    (let s := st idleB [.setGie true] [quiet]
     s.request = .setGie true ∧ s.accepting = true) ∧
    (let s := st idleB [.setGie true] [{ quiet with stall := true }]
     s.request = .setGie true ∧ s.now.rst = false ∧ s.stalled = true) ∧
    (let s := st (busyB .data 1 0 true) [.setGie true] [quiet]
     s.request = .setGie true ∧ s.now.rst = false ∧ s.block.phase ≠ .idle) :=
  ⟨⟨rfl, rfl⟩, ⟨rfl, rfl, rfl⟩, rfl, rfl, Phase.noConfusion⟩

/-- The six EndOf… statements: a live busy state in the last cycle of each phase. -/
theorem witness_phase_ends :
    (let s := st (busyB .setup Config.params.setupCycles 0 true) [] [quiet]
     s.Live ∧ s.block.phase = .setup ∧ s.block.cyc = Config.params.setupCycles - 1) ∧
    (let s := st (busyB .start Config.params.bitCycles 0 true) [] [quiet]
     s.Live ∧ s.block.phase = .start ∧ s.block.cyc = Config.params.bitCycles - 1) ∧
    (let s := st (busyB .data Config.params.bitCycles 6 true) [] [quiet]
     s.Live ∧ s.block.phase = .data ∧ s.block.cyc = Config.params.bitCycles - 1 ∧ s.block.bitIdx.val < 7) ∧
    (let s := st (busyB .data Config.params.bitCycles 7 true) [] [quiet]
     s.Live ∧ s.block.phase = .data ∧ s.block.cyc = Config.params.bitCycles - 1 ∧ s.block.bitIdx = 7) ∧
    (∀ saved, let s := st (busyB .stop Config.params.bitCycles 0 saved) [] [quiet]
     s.Live ∧ s.block.phase = .stop ∧ s.block.cyc = Config.params.bitCycles - 1 ∧ s.block.savedGie = saved) ∧
    (let s := st (busyB .teardown Config.params.teardownCycles 0 true) [] [quiet]
     s.Live ∧ s.block.phase = .teardown ∧ s.block.cyc = Config.params.teardownCycles - 1) :=
  ⟨⟨⟨rfl, rfl⟩, rfl, rfl⟩, ⟨⟨rfl, rfl⟩, rfl, rfl⟩, ⟨⟨rfl, rfl⟩, rfl, rfl, by decide⟩, ⟨⟨rfl, rfl⟩, rfl, rfl, rfl⟩,
    fun _ => ⟨⟨rfl, rfl⟩, rfl, rfl, rfl⟩, ⟨⟨rfl, rfl⟩, rfl, rfl⟩⟩

theorem witness_WithinPhaseOnlyCounts :
    let s := st (before .start 1 0 false true true) [] [quiet]
    s.Live ∧ s.block.phase ≠ .idle ∧ s.block.cyc < phaseLen dualC.params s.block.phase - 1 := by
  refine ⟨⟨rfl, rfl⟩, Phase.noConfusion, ?_⟩
  decide

theorem witness_StepKeepsTheInvariant :
    ∃ s t : State, s.block.Inv Config.params ∧ step s = .next t ∧ t.block.phase = .setup :=
  ⟨st (Block.reset Config.params) [.cmd 0x0255#16] [quiet], _, Block.reset_inv _, rfl, rfl⟩

theorem witness_Reachable_idle_after_init :
    ∃ s, Reachable s ∧ s.block.phase = .idle ∧ s.block.initDone = true :=
  ⟨_, .step (.launch [.cmd 0x0100#16] [quiet]) rfl, (initBlock_frame _ _).1, rfl⟩

/-- From the pre-idle, quiet cycles lead to the start bit. -/
theorem quiet_setup_leads_to_start (c : Configuration) {v : Byte} : ∀ (n j : Nat) (s : State),
    InSetup c.params v j s.block → s.env = List.replicate n quiet → j + n = c.params.setupCycles →
    InSlot c.params v 0 0 ((nextAt c)^[n] s).block := by
  intro n
  induction n with
  | zero => intro j s h _ hn; exact absurd h.lt (by omega)
  | succ n ih =>
    intro j s h he hn
    have hnow : s.now = quiet := by simp [State.now, he, List.replicate_succ]
    have hl : s.Live := ⟨by simp [hnow, quiet], by simp [State.stalled, hnow, quiet, Block.stallEff]⟩
    have e : (nextAt c s).block = advance c.params s.now.draw s.block := by
      rw [nextAt_eq (.busy hl (by simp [h.phase]))]; rfl
    rw [Function.iterate_succ_apply]
    by_cases hj : j + 1 < c.params.setupCycles
    · refine ih (j + 1) _ (e ▸ h.count _ hj) ?_ (by omega)
      rw [(nextAt_case c s).clock.2, he, List.replicate_succ, List.tail_cons]
    · obtain rfl : n = 0 := by omega
      exact e ▸ h.startEdge c.valid _ (by omega)

theorem reachable_next {s : State} (h : Reachable s) : Reachable (nextAt Config.configuration s) :=
  .step h ((step_eq_stepAt _).trans (stepAt_eq _ _))

theorem reachable_iterate {s : State} (h : Reachable s) (n : Nat) : Reachable ((nextAt Config.configuration)^[n] s) := by
  induction n with
  | zero => exact h
  | succ n ih =>
    rw [Function.iterate_succ_apply']
    exact reachable_next ih

/-- The critical section is reached, whatever the parameters: SEND 0x55 from reset with no reset and no stall. -/
theorem witness_ReachableCriticalSection : ∃ s, Reachable s ∧ s.block.cs = true := by
  have h := quiet_setup_leads_to_start Config.configuration Config.params.setupCycles 0
    (nextAt Config.configuration
      { State.reset with program := [.cmd 0x0255#16], env := quiet :: List.replicate Config.params.setupCycles quiet })
    (InSetup.send Config.params_valid 0x55#8 _) rfl (Nat.zero_add _)
  exact ⟨_, reachable_iterate (reachable_next (.launch _ _)) _, h.cs⟩

/-- A block of the machine dualP in the last cycle of the pre-idle of 0x55. -/
def setupEndB : Block := { sendBlock dualP 0x55#8 dualB with cyc := 1 }

theorem setupEndB_inv : setupEndB.Inv dualP :=
  { sendBlock_inv dualP_valid dualB_inv rfl 0x55#8 with
    idle_clear := Phase.noConfusion
    cyc_lt := fun _ => by decide }

/-- A block of the machine dualP in the first cycle of the start bit of 0x55. -/
def startB : Block := advance dualP false setupEndB

theorem startB_inv : startB.Inv dualP := advance_inv dualP_valid setupEndB_inv Phase.noConfusion false

/-- A block of the machine dualP in each busy phase, within the invariant. -/
theorem witness_TxPinFollowsThePhaseTable :
    Block.Inv dualP setupEndB ∧ setupEndB.phase = .setup ∧ startB.Inv dualP ∧ startB.phase = .start ∧
    (let b := { startB with phase := .data, bitIdx := 7, cyc := 2 }
     Block.Inv dualP b ∧ b.phase = .data) ∧
    (let b := stopEdge dualP startB
     b.Inv dualP ∧ b.phase = .stop) ∧
    (let b := endStop true (stopEdge dualP startB)
     b.Inv dualP ∧ b.phase = .teardown) := by
  refine ⟨setupEndB_inv, rfl, startB_inv, rfl, ⟨?_, rfl⟩, ⟨?_, rfl⟩, ⟨?_, rfl⟩⟩ <;> constructor <;> decide

theorem witness_ReceiveInterruptWaitsForGie :
    let b := initBlock singleP (Block.reset singleP)
    b.Inv singleP ∧ b.initDone = true ∧ singleP.rxIrq = true :=
  ⟨initBlock_inv singleP_valid (Block.reset_inv _) rfl, rfl, rfl⟩

theorem witness_PlacedWordRunsNext : decodeTableWord 16 0x02FF = some (.send 0xFF#8) := by decide

theorem witness_SlotsAreExact :
    let s := st startB [] (List.replicate 30 quiet)
    s.block.Inv dualC.params ∧ s.block.phase = .start ∧ s.block.cyc = 0 ∧ s.block.cs = true ∧
      NoReset (10 * dualC.params.bitCycles) s :=
  ⟨startB_inv, rfl, rfl, rfl, noReset_replicate 30 _ _⟩

/-- A stalled state inside SETUP meets the first clause, one in START the second. -/
theorem witness_NoEffectiveStallInAFrame :
    (st { dualB with gie := true } [] [{ quiet with stall := true }]).stalled = true ∧
    Block.Inv dualP { dualB with gie := true } ∧ startB.Inv dualP ∧ startB.phase = .start :=
  ⟨rfl, dualB_inv.setGie rfl true, startB_inv, rfl⟩

theorem witness_FaultsAreSticky :
    let s := st { idleB with faults := [.initRepeated] } [] [{ quiet with rst := true }]
    ModelFault.initRepeated ∈ s.block.faults ∧ ∃ t, step s = .next t := ⟨List.mem_cons_self, _, rfl⟩

theorem witness_FaultedRunNeverFinal :
    let s := st { idleB with faults := [.initRepeated] } [] [quiet]
    ModelFault.initRepeated ∈ s.block.faults ∧ ∃ t, runAt Config.configuration 1 s = .next t :=
  ⟨List.mem_cons_self, _, rfl⟩

/-- OtherPinsUntouched, PullUpsOnlyClearedMasksOnlySet and PhasesFollowInOrder: a step without a reset. -/
theorem witness_unreset_step : ∃ t, sendS.now.rst = false ∧ step sendS = .next t ∧ t.block.phase = .setup :=
  ⟨_, rfl, rfl, rfl⟩

/-- Two pins of a port that are neither the TX pin nor the RX pin need only exist as numbers. -/
theorem witness_OtherPinsUntouched :
    ∃ pin, pin ≠ Config.params.txPin ∧ pin ≠ Config.params.rxPin :=
  ⟨Config.params.txPin + Config.params.rxPin + 1, by omega, by omega⟩

theorem witness_OnlyTheseEventsChangeGie :
    ∃ t, step (st idleB [.setGie false] [quiet]) = .next t ∧ t.block.gie ≠ idleB.gie :=
  ⟨_, rfl, Bool.noConfusion⟩

/-- Each clause of OnlyTheseEventsChangeTheLatches: SEND changes TXBYTE and SAVED_GIE, INIT changes INIT_DONE. -/
theorem witness_OnlyTheseEventsChangeTheLatches :
    (∃ t, step sendS = .next t ∧ t.block.txByte ≠ sendS.block.txByte) ∧
    (∃ t, step initS = .next t ∧ t.block.initDone ≠ initS.block.initDone) ∧
    (startB.cs ≠ setupEndB.cs ∧ setupEndB.phase = .setup) :=
  ⟨⟨_, rfl, by decide⟩, ⟨_, rfl, Bool.noConfusion⟩, by decide, rfl⟩

/-- A program that begins with a WAIT, in a state whose next cycles are a stall and a reset. -/
theorem witness_WaitPresentsNothingForItsCycles :
    (st idleB [.wait 2, .cmd 0x0255#16] [{ quiet with stall := true }, { quiet with rst := true }]).program =
      .wait 2 :: [.cmd 0x0255#16] := rfl

/-- What is left of the program after an accepted request, behind a `WAIT 0` and without one. -/
theorem witness_RequestServedExactlyWhenAccepted_rest :
    (let s := st idleB [.wait 0, .setGie false, .cmd 0x0255#16] [quiet]
     s.request ≠ .none ∧ s.accepting = true ∧
       s.program = List.replicate 1 (.wait 0) ++ .setGie false :: [.cmd 0x0255#16]) ∧
    sendS.program = List.replicate 0 (.wait 0) ++ .cmd 0x0255#16 :: [] :=
  ⟨⟨Request.noConfusion, rfl, rfl⟩, rfl⟩

/-- A SEND accepted with one stall in SETUP: σ = 1. -/
def stalledFrame : State :=
  st { dualB with gie := true } [.cmd (encode (.send 0x55#8))]
    ([quiet, { quiet with stall := true }] ++ List.replicate 40 quiet)

theorem witness_FrameTiming :
    stalledFrame.accepting = true ∧ stalledFrame.request = .cmd (encode (.send 0x55#8)) ∧
      stallsIn dualC (1 + dualC.params.setupCycles + 1) stalledFrame = 1 ∧
      NoReset (1 + dualC.params.setupCycles + 1 + 10 * dualC.params.bitCycles) stalledFrame := by
  refine ⟨rfl, rfl, by decide, ?_⟩
  have : ∀ i, i < 34 → (stalledFrame.inputAt i).rst = false := by decide
  exact this

theorem witness_ReferenceDecoderRecoversTheByte : 0 < dualC.params.bitCycles ∧ 2 < dualC.params.bitCycles := by decide

/-- BusyDuration at its two ends: the cycle after acceptance, and the cycle in which the engine is idle again. -/
theorem witness_BusyDuration :
    stalledFrame.accepting = true ∧ stalledFrame.request = .cmd (encode (.send 0x55#8)) ∧
      NoReset (35 + 1) stalledFrame ∧ (∃ t, runAt dualC (35 + 1) stalledFrame = .next t) ∧
      (let p := dualC.params
       0 < p.setupCycles + 10 * p.bitCycles + p.teardownCycles + stallsIn dualC (0 + 1) stalledFrame ∧
       35 = p.setupCycles + 10 * p.bitCycles + p.teardownCycles + stallsIn dualC (35 + 1) stalledFrame) := by
  refine ⟨rfl, rfl, ?_, ⟨_, runAt_eq _ _ _⟩, by decide, by decide⟩
  have : ∀ i, i < 36 → (stalledFrame.inputAt i).rst = false := by decide
  exact this

theorem witness_TimingIndependentOfData :
    State.SameButByte dualC.params (st dualB [.cmd (encode (.send 0x00#8))] [quiet])
      (st dualB [.cmd (encode (.send 0xFF#8))] [quiet]) :=
  ⟨⟨rfl, rfl, rfl, rfl, rfl, rfl, rfl, rfl, rfl, rfl, rfl, fun _ => .inr rfl⟩, rfl,
    .cons (.inr ⟨_, _, rfl, rfl⟩) .nil, rfl⟩

/-- Fair stalls hold in TEARDOWN with interrupts off on a machine whose reset leaves them off: no cycle of the run
is an effective stall. -/
theorem witness_FairFrameEnds :
    let s := st { dualB with phase := .teardown } [] []
    s.block.Inv dualC.params ∧ s.block.phase ≠ .idle ∧ FairStalls dualC s := by
  have keep : ∀ (n : Nat) (s : State), s.block.gie = false → s.program = [] →
      s.block.phase = .teardown ∨ s.block.phase = .idle → ((nextAt dualC)^[n] s).block.gie = false := by
    intro n
    induction n with
    | zero => intro s hg _ _; exact hg
    | succ n ih =>
      intro s hg hp hph
      have hq : s.request = .none := by simp [State.request, hp, present]
      have c := nextAt_case dualC s
      rw [Function.iterate_succ_apply]
      generalize nextAt dualC s = t at c ⊢
      cases c with
      | reset hr => exact ih _ rfl (by simp [State.afterReset, hp, keepProgram]) (.inr rfl)
      | stall hr hs => exact ih _ hg (by simp [hp, keepProgram]) hph
      | none hl hi hq => exact ih _ hg (by simp [hp, keepProgram]) hph
      | setGie hl hi g h => simp [hq] at h
      | command hl hi w i h hd => simp [hq] at h
      | illegal hl hi w why h hd => simp [hq] at h
      | busy hl hb =>
        have htd : s.block.phase = .teardown := hph.resolve_right hb
        have ha := advance_case (p := dualC.params) (draw := s.now.draw) hb
        refine ih _ ?_ (by simp [hp, keepProgram]) ?_
        · simp only [State.mapBlock_block, State.hold_block]
          generalize advance dualC.params s.now.draw s.block = d at ha ⊢
          cases ha with
          | within => exact hg
          | teardown => simpa [endTeardown_eq] using hg
          | setup h => simp [htd] at h
          | start h => simp [htd] at h
          | data h => simp [htd] at h
          | last h => simp [htd] at h
          | stop h => simp [htd] at h
        · simp only [State.mapBlock_block, State.hold_block]
          generalize advance dualC.params s.now.draw s.block = d at ha ⊢
          cases ha with
          | within => exact .inl htd
          | teardown => simp [endTeardown_eq]
          | setup h => simp [htd] at h
          | start h => simp [htd] at h
          | data h => simp [htd] at h
          | last h => simp [htd] at h
          | stop h => simp [htd] at h
  refine ⟨?_, Phase.noConfusion, fun n => ⟨0, _, runAt_eq _ _ _, ?_⟩⟩
  · exact { dualB_inv with
      idle_clear := Phase.noConfusion
      cyc_lt := fun _ => by decide
      bitIdx_zero := fun _ => rfl
      cs_iff := by decide
      tx_driven := fun _ => ⟨rfl, rfl⟩
      rx_input := fun _ _ => rfl
      tx_high := fun _ _ => ⟨rfl, Phase.noConfusion⟩ }
  · have := keep n (st { dualB with phase := .teardown } [] []) rfl rfl (.inl rfl)
    simp [State.stalled, Block.stallEff, this]

end Sys2Proof.Machine.Tests
end

/-! Proofs of the state family. The invariant of the block holds of every reachable state (R41, R42), and runs that
differ only in the bytes sent keep doing so (R43). -/

namespace Sys2Proof.Machine

/-! ### The invariant along runs from reset -/

/-- Every case of a step keeps the invariant of the block. -/
theorem StepCase.inv {c : Configuration} {s t : State} (h : StepCase c s t) (hs : s.block.Inv c.params) :
    t.block.Inv c.params := by
  cases h with
  | reset => exact resetBlock_inv hs
  | stall => exact hs
  | busy _ hb => exact advance_inv c.valid hs hb _
  | none => exact hs
  | setGie _ hi g => exact hs.setGie hi g
  | command _ hi _ i => exact commandBlock_inv c.valid hs hi i
  | illegal => exact hs.raise _

/-- The invariant holds at every launch and every step keeps it. -/
theorem Reachable.inv {s : State} (h : Reachable s) : s.block.Inv Config.params := by
  induction h with
  | launch => exact Block.reset_inv _
  | step _ hs ih =>
    rw [step_eq_stepAt] at hs
    exact (stepCase_of_next hs).inv ih

/-- R41 read in IDLE, which is none of the phases of the critical section. -/
theorem Block.Inv.cs_of_idle {p : Params} {b : Block} (h : b.Inv p) (hi : b.phase = .idle) : b.cs = false := by
  have hn : ¬ b.cs = true := by simp [h.cs_iff, hi]
  simpa using hn

/-- In IDLE after INIT the invariant is R42's configuration of the pins. In SINGLE mode the TX pin is the RX pin, so
what holds of the one holds of the other. -/
theorem Block.Inv.idleConfig {p : Params} (hp : p.Valid) {b : Block} (h : b.Inv p) (hi : b.phase = .idle)
    (hd : b.initDone = true) : b.IdleConfig p := by
  obtain ⟨-, -, hsingle, -⟩ := hp
  obtain ⟨hcyc, hbyte, -⟩ := h.idle_clear hi
  have hbit : b.bitIdx = 0 := h.bitIdx_zero (by simp [hi])
  have hrx : b.dir.get p.rxPin = false := h.rx_input hd (.inr hi)
  constructor
  case clear => exact ⟨hcyc, hbit, hbyte, h.cs_of_idle hi⟩
  case rx_input => exact hrx
  case dual =>
    intro hw
    obtain ⟨hdir, hout⟩ := h.tx_high hd hw
    exact ⟨hdir, hout hi, drive_of_get hdir (hout hi), h.rx_pull hd⟩
  case single =>
    intro hw
    rw [hsingle hw]
    exact ⟨hrx, h.rx_pull hd, by simp [Block.drive, hrx]⟩
  case hook => exact h.rx_hook hd

/-- Settles O37, from the invariant of every reachable state. -/
theorem reachableCriticalSection : Obligations.ReachableCriticalSection := by
  intro s h
  exact ⟨h.inv.cs_iff, h.inv.cs_gie⟩

/-- Settles O38, from the invariant of every reachable state. -/
theorem reachableIdleConfiguration : Obligations.ReachableIdleConfiguration := by
  intro s h hi hd
  exact h.inv.idleConfig Config.params_valid hi hd

/-! ### Programs that differ only in the bytes to be sent -/

/-- Two requests that differ at most in the byte a SEND sends. -/
def Request.SameButByte (q r : Request) : Prop :=
  q = r ∨ ∃ v w : Byte, q = .cmd (encode (.send v)) ∧ r = .cmd (encode (.send w))

/-- A request that is no SEND is the same on both sides. -/
theorem Request.SameButByte.eq_of_ne_send {q r : Request} (h : Request.SameButByte q r)
    (hq : ∀ v : Byte, q ≠ .cmd (encode (.send v))) : r = q := by
  rcases h with e | ⟨v, -, e, -⟩
  · exact e.symm
  · exact absurd e (hq v)

theorem decode_encode_send (v : Byte) : decode (encode (.send v)) = .instr (.send v) := by
  have hv := v.isLt
  have hopc : opcode (encode (.send v)) = 0x02#8 := by
    rw [opcode_eq_iff, encode_send_toNat]
    show (512 + v.toNat) / 256 = 2
    omega
  have hdata : operand (encode (.send v)) = v := by
    rw [operand_eq_iff, encode_send_toNat]
    omega
  simp [decode, hopc, hdata]

theorem present_sameButByte {xs ys : List HostItem} (h : List.Forall₂ HostItem.SameButByte xs ys) :
    Request.SameButByte (present xs) (present ys) := by
  induction h with
  | nil => exact .inl rfl
  | @cons x _ _ _ hx _ ih =>
    obtain rfl | ⟨v, w, rfl, rfl⟩ := hx
    · match x with
      | .wait 0 => exact ih
      | .wait (_ + 1) | .cmd _ | .setGie _ => exact .inl rfl
    · exact .inr ⟨v, w, rfl, rfl⟩

theorem keepProgram_sameButByte {xs ys : List HostItem} (h : List.Forall₂ HostItem.SameButByte xs ys) :
    List.Forall₂ HostItem.SameButByte (keepProgram xs) (keepProgram ys) := by
  induction h with
  | nil => exact .nil
  | @cons x _ _ _ hx hrest ih =>
    obtain rfl | ⟨v, w, rfl, rfl⟩ := hx
    · match x with
      | .wait 0 => exact ih
      | .wait (n + 1) =>
        rw [keepProgram_wait, keepProgram_wait]
        split
        · exact hrest
        · exact .cons (.inl rfl) hrest
      | .cmd _ | .setGie _ => exact .cons (.inl rfl) hrest
    · exact .cons (.inr ⟨v, w, rfl, rfl⟩) hrest

theorem serveProgram_sameButByte {xs ys : List HostItem} (h : List.Forall₂ HostItem.SameButByte xs ys) :
    List.Forall₂ HostItem.SameButByte (serveProgram xs) (serveProgram ys) := by
  induction h with
  | nil => exact .nil
  | @cons x _ _ _ hx hrest ih =>
    obtain rfl | ⟨v, w, rfl, rfl⟩ := hx
    · match x with
      | .wait 0 => exact ih
      | .wait (_ + 1) => exact .cons (.inl rfl) hrest
      | .cmd _ | .setGie _ => exact hrest
    · exact hrest

/-! ### States that differ only in the bytes being sent and to be sent -/

section SameButByte

variable {p : Params} {s t : State}

theorem State.SameButByte.now (h : s.SameButByte p t) : t.now = s.now := by
  simp [State.now, h.env, h.cycle]

theorem State.SameButByte.stalled (h : s.SameButByte p t) : t.stalled = s.stalled := by
  simp [State.stalled, Block.stallEff, h.now, h.block.gie, h.block.cs]

theorem State.SameButByte.live (h : s.SameButByte p t) (hl : s.Live) : t.Live := by
  obtain ⟨hr, hs⟩ := hl
  exact ⟨h.now ▸ hr, h.stalled ▸ hs⟩

theorem State.SameButByte.request (h : s.SameButByte p t) : Request.SameButByte s.request t.request :=
  present_sameButByte h.program

theorem State.SameButByte.busy (h : s.SameButByte p t) : s.block.busy = t.block.busy := by
  simp [Block.busy, h.block.phase]

theorem State.SameButByte.hold (h : s.SameButByte p t) : s.hold.SameButByte p t.hold where
  block := h.block
  cycle := by simp [h.cycle]
  program := keepProgram_sameButByte h.program
  env := by simp [h.env]

theorem State.SameButByte.serve (h : s.SameButByte p t) : s.serve.SameButByte p t.serve where
  block := h.block
  cycle := by simp [h.cycle]
  program := serveProgram_sameButByte h.program
  env := by simp [h.env]

theorem State.SameButByte.mapBlock (h : s.SameButByte p t) {f g : Block → Block}
    (hfg : (f s.block).SameButByte p (g t.block)) : (s.mapBlock f).SameButByte p (t.mapBlock g) :=
  { h with block := hfg }

end SameButByte

/-- The same command on both sides. -/
theorem commandBlock_sameButByte {p : Params} {a b : Block} (h : a.SameButByte p b) (hi : a.phase = .idle)
    (i : Instr) : (commandBlock p i a).SameButByte p (commandBlock p i b) := by
  cases i with
  | init => exact initBlock_sameButByte h
  | send v => exact sendBlock_sameButByte h hi v v

/-- The unwinding step of R43: whatever branch of R100 one state takes, the other takes the same one. Only an accepted
SEND may differ, in its byte. -/
theorem nextAt_sameButByte {c : Configuration} {s t : State} (h : s.SameButByte c.params t) :
    (nextAt c s).SameButByte c.params (nextAt c t) := by
  have hph : t.block.phase = s.block.phase := h.block.phase.symm
  have hcase := nextAt_case c s
  generalize nextAt c s = s' at hcase ⊢
  cases hcase with
  | reset hr =>
    rw [nextAt_eq (.reset (h.now ▸ hr))]
    exact h.hold.mapBlock (resetBlock_sameButByte _ _ _)
  | stall hr hs =>
    rw [nextAt_eq (.stall (h.now ▸ hr) (h.stalled ▸ hs))]
    exact h.hold
  | busy hl hb =>
    rw [nextAt_eq (.busy (h.live hl) (hph ▸ hb)), h.now]
    exact h.hold.mapBlock (advance_sameButByte h.block hb _)
  | none hl hi hq =>
    have hqt : t.request = .none := (h.request.eq_of_ne_send (by simp [hq])).trans hq
    rw [nextAt_eq (.none (h.live hl) (hph.trans hi) hqt)]
    exact h.hold
  | setGie hl hi g hq =>
    have hqt : t.request = .setGie g := (h.request.eq_of_ne_send (by simp [hq])).trans hq
    rw [nextAt_eq (.setGie (h.live hl) (hph.trans hi) g hqt)]
    exact h.serve.mapBlock (h.block.setGie g)
  | command hl hi w i hq hd =>
    rcases h.request with e | ⟨v, v', es, et⟩
    · rw [nextAt_eq (.command (h.live hl) (hph.trans hi) w i (e.symm.trans hq) hd)]
      exact h.serve.mapBlock (commandBlock_sameButByte h.block hi i)
    · obtain rfl : w = encode (.send v) := by simpa [hq] using es
      obtain rfl : i = .send v := by simpa [decode_encode_send] using hd.symm
      rw [nextAt_eq (.command (h.live hl) (hph.trans hi) _ _ et (decode_encode_send v'))]
      exact h.serve.mapBlock (sendBlock_sameButByte h.block hi v v')
  | illegal hl hi w why hq hd =>
    have hsend : ∀ v : Byte, s.request ≠ .cmd (encode (.send v)) := by
      intro v e
      obtain rfl : w = encode (.send v) := by simpa [hq] using e
      simp [decode_encode_send] at hd
    have hqt : t.request = .cmd w := (h.request.eq_of_ne_send hsend).trans hq
    rw [nextAt_eq (.illegal (h.live hl) (hph.trans hi) w why hqt hd)]
    exact h.serve.mapBlock (h.block.withFaults _ _)

/-- n cycles keep the relation. -/
theorem iterate_nextAt_sameButByte {c : Configuration} {s t : State} (h : s.SameButByte c.params t) (n : Nat) :
    ((nextAt c)^[n] s).SameButByte c.params ((nextAt c)^[n] t) := by
  induction n with
  | zero => exact h
  | succ n ih =>
    rw [Function.iterate_succ_apply', Function.iterate_succ_apply']
    exact nextAt_sameButByte ih

/-- Settles O54, by the unwinding step carried over the n cycles. -/
theorem timingIndependentOfData : Obligations.TimingIndependentOfData := by
  intro c s t h n
  have hn := iterate_nextAt_sameButByte h n
  exact ⟨_, _, runAt_eq c n s, runAt_eq c n t, hn, hn.busy⟩

end Sys2Proof.Machine

/-! Proofs of the encoding family. The decoder's answers by the two bytes of a word (R75), and the frame as a word of
ten slots (R76, R78). -/

namespace Sys2Proof

/-! ### Which words have which decoding -/

theorem decode_eq_init_iff (w : Word) : decode w = .instr .init ↔ opcode w = 0x01#8 ∧ operand w = 0x00#8 := by
  rcases decode_cases w with ⟨h1, h0, hd⟩ | ⟨h2, hd⟩ | ⟨hinit, -, why, hd⟩
  · simp [hd, h1, h0]
  · simp [hd, h2]
  · simp [hd, hinit]

theorem decode_eq_send_iff (w : Word) (v : Byte) :
    decode w = .instr (.send v) ↔ opcode w = 0x02#8 ∧ operand w = v := by
  rcases decode_cases w with ⟨h1, -, hd⟩ | ⟨h2, hd⟩ | ⟨-, hsend, why, hd⟩
  · simp [hd, h1]
  · simp [hd, h2]
  · simp [hd, hsend]

theorem decode_illegal_iff (w : Word) :
    (∃ why, decode w = .illegal why) ↔ ¬(opcode w = 0x01#8 ∧ operand w = 0x00#8) ∧ opcode w ≠ 0x02#8 := by
  rcases decode_cases w with ⟨h1, h0, hd⟩ | ⟨h2, hd⟩ | ⟨hinit, hsend, why, hd⟩
  · simp [hd, h1, h0]
  · simp [hd, h2]
  · exact ⟨fun _ => ⟨hinit, hsend⟩, fun _ => ⟨why, hd⟩⟩

/-- Settles O2, from the decoder's three answers by the fields of the word, read as numbers. -/
theorem decodeByItsBytes : Obligations.DecodeByItsBytes := by
  intro w
  have hinit : opcode w = 0x01#8 ∧ operand w = 0x00#8 ↔ w.toNat / 256 = 1 ∧ w.toNat % 256 = 0 :=
    and_congr (opcode_eq_iff w 0x01#8) (operand_eq_iff w 0x00#8)
  have hsend : opcode w = 0x02#8 ↔ w.toNat / 256 = 2 := opcode_eq_iff w 0x02#8
  refine ⟨?init, fun v => ?send, ?illegal⟩
  case init => rw [decode_eq_init_iff, hinit]
  case send => rw [decode_eq_send_iff, hsend, operand_eq_iff]
  case illegal => rw [decode_illegal_iff, hinit, ne_eq, hsend]

end Sys2Proof

namespace Sys2Proof.Machine

/-! ### The frame word -/

theorem slotBit_start (v : Byte) : slotBit v 0 = false := rfl

theorem slotBit_data (v : Byte) {k : Nat} (hk : k < 8) : slotBit v (k + 1) = v.getLsbD k := by
  simp [slotBit, dataBit, Nat.succ_le_of_lt hk]

theorem slotBit_stop (v : Byte) : slotBit v 9 = true := rfl

/-- R78: a bit of `{1, v[7:0], 0}` is a bit of the part it falls in. -/
theorem frameWord_getLsbD_parts (v : Byte) (k : Nat) :
    (frameWord v).getLsbD k =
      if k < 1 then (0#1).getLsbD k else if k - 1 < 8 then v.getLsbD (k - 1) else (1#1).getLsbD (k - 1 - 8) := by
  rw [← BitVec.getLsbD_append]
  exact BitVec.getLsbD_append

/-- R78: each bit of the frame word is the bit of its slot: the start bit, one of the eight data bits, the stop bit. -/
theorem frameWord_getLsbD (v : Byte) {k : Nat} (hk : k < 10) : (frameWord v).getLsbD k = slotBit v k := by
  rw [frameWord_getLsbD_parts]
  match k with
  | 0 => simp [slotBit_start]
  | j + 1 =>
    rcases Nat.lt_succ_iff_lt_or_eq.mp (Nat.lt_of_succ_lt_succ hk) with hj | rfl
    · simp [slotBit_data v hj, hj]
    · simp [slotBit_stop]

/-- Settles O6, slot by slot. -/
theorem frameWordIsTheSlots : Obligations.FrameWordIsTheSlots := by
  refine ⟨fun v k hk => frameWord_getLsbD v hk, fun v => ⟨?start, ?stop, fun k hk => ?data⟩, ?word⟩
  case start => rw [frameWord_getLsbD v (by decide), slotBit_start]
  case stop => rw [frameWord_getLsbD v (by decide), slotBit_stop]
  case data => rw [frameWord_getLsbD v (by omega), slotBit_data v hk]
  case word => decide

end Sys2Proof.Machine

/-! Proofs of the pin configurator's family. What INIT writes and leaves alone (R90, R92, R93), and the cycles after
an accepted INIT (R91, R94). -/

namespace Sys2Proof.Machine

/-! ### What INIT writes, read pin by pin and fault by fault -/

theorem initBlock_pue_get (p : Params) (b : Block) (pin : Nat) :
    (initBlock p b).pue.get pin = if pin = p.rxPin then false else b.pue.get pin := by
  rw [initBlock_pue, PinSet.get_put]

theorem initBlock_pcmsk_get (p : Params) (b : Block) (pin : Nat) :
    (initBlock p b).pcmsk.get pin = if p.rxIrq = true ∧ pin = p.rxPin then true else b.pcmsk.get pin := by
  rw [initBlock_pcmsk]
  cases p.rxIrq with
  | false => simp
  | true => simp [PinSet.get_put]

theorem mem_initBlock_faults (p : Params) (b : Block) (f : ModelFault) :
    f ∈ (initBlock p b).faults ↔ f ∈ b.faults ∨ (b.initDone = true ∧ f = .initRepeated) := by
  rw [initBlock_faults]
  cases b.initDone with
  | false => simp
  | true => simp [or_comm]

/-- INIT leaves the engine in the phase it finds it in (R91). -/
@[simp] theorem initBlock_phase (p : Params) (b : Block) : (initBlock p b).phase = b.phase :=
  (initBlock_frame p b).1

/-- The meaning of INIT is R90's change of the block, in every state. -/
theorem exec_init (s : State) : exec .init s = .next (s.mapBlock (initBlock Config.params)) := rfl

/-- Settles O10, from what INIT does to each field of the block. -/
theorem initCompletes : Obligations.InitCompletes := fun s =>
  have ⟨hphase, hcyc, hbit, hbyte, hcs, hsaved, hgie⟩ := initBlock_frame Config.params s.block
  ⟨_, exec_init s, initBlock_dir _ _, initBlock_out _ _, initBlock_pue_get _ _, initBlock_pcmsk_get _ _,
    initBlock_pcie _ _, initBlock_initDone _ _, mem_initBlock_faults _ _,
    hphase, hcyc, hbit, hbyte, hcs, hsaved, hgie, rfl, rfl, rfl⟩

/-! ### The cycle that accepts INIT -/

/-- An accepted word that decodes has its command run on the state in which it has left the program (R37, R100). -/
theorem StepCase.of_accepted {c : Configuration} {s : State} {w : Word} {i : Instr} (ha : s.accepting = true)
    (hq : s.request = .cmd w) (hd : decode w = .instr i) :
    StepCase c s (s.serve.mapBlock (commandBlock c.params i)) := by
  obtain ⟨hl, hi⟩ := s.accepting_iff.mp ha
  exact .command hl hi w i hq hd

theorem StepCase.of_accepted_init {c : Configuration} {s : State} (ha : s.accepting = true)
    (hq : s.request = .cmd (encode .init)) : StepCase c s (s.serve.mapBlock (initBlock c.params)) :=
  .of_accepted ha hq decode_init_word

/-- In IDLE only a stall withholds `CMD_READY` (R38). -/
theorem State.cmdReady_of_idle {s : State} (hi : s.block.phase = .idle) : s.cmdReady = !s.stalled := by
  simp [State.cmdReady, s.block.busy_eq_false_iff.mpr hi]

/-- Settles O12: INIT is accepted in IDLE and does not write the phase. -/
theorem initTakesOneCycle : Obligations.InitTakesOneCycle := by
  intro s ha hq
  obtain ⟨-, hi⟩ := s.accepting_iff.mp ha
  have hnext := (StepCase.of_accepted_init (c := Config.configuration) ha hq).next
  have hidle : (s.serve.mapBlock (initBlock Config.params)).block.phase = .idle := by simpa using hi
  exact ⟨_, (step_eq_stepAt s).trans hnext, hidle, Block.busy_eq_false_iff _ |>.mpr hidle, rfl,
    State.cmdReady_of_idle hidle, fun hr hs => (State.accepting_iff _).mpr ⟨⟨hr, hs⟩, hidle⟩⟩

/-! ### Cycles without a request -/

/-- In IDLE a cycle without a request and without a reset holds the block, stalled or not (R112, R146). -/
theorem StepCase.eq_hold {c : Configuration} {s t : State} (h : StepCase c s t) (hi : s.block.phase = .idle)
    (hq : s.request = .none) (hr : s.now.rst = false) : t = s.hold := by
  cases h with
  | reset hr' => simp [hr] at hr'
  | stall => rfl
  | busy _ hb => exact absurd hi hb
  | none => rfl
  | setGie _ _ g hq' => simp [hq] at hq'
  | command _ _ w i hq' => simp [hq] at hq'
  | illegal _ _ w why hq' => simp [hq] at hq'

/-- Any number of such cycles. -/
theorem iterate_nextAt_eq_hold {c : Configuration} {s : State} {n : Nat} (hi : s.block.phase = .idle)
    (hq : ∀ j, j < n → present (keepProgram^[j] s.program) = .none) (hr : NoReset n s) :
    (nextAt c)^[n] s = State.hold^[n] s := by
  induction n generalizing s with
  | zero => rfl
  | succ n ih =>
    obtain ⟨hnow, hrest⟩ := (noReset_next (c := c)).mp hr
    have hstep : nextAt c s = s.hold := (nextAt_case c s).eq_hold hi (hq 0 n.succ_pos) hnow
    rw [hstep] at hrest
    rw [Function.iterate_succ_apply, Function.iterate_succ_apply, hstep]
    exact ih hi (fun j hj => hq (j + 1) (Nat.succ_lt_succ hj)) hrest

@[simp] theorem State.iterate_hold_block (s : State) (n : Nat) : (State.hold^[n] s).block = s.block := by
  induction n with
  | zero => rfl
  | succ n ih => rw [Function.iterate_succ_apply', State.hold_block, ih]

/-- Settles O13: INIT leads to the idle configuration by the invariant, and the cycles after it hold the block. -/
theorem initThenNothingStaysIdle : Obligations.InitThenNothingStaysIdle := by
  intro c s n hinv ha hq hnone hr
  obtain ⟨-, hi⟩ := s.accepting_iff.mp ha
  have hinit := StepCase.of_accepted_init (c := c) ha hq
  obtain ⟨-, hrest⟩ := (noReset_next (c := c)).mp hr
  rw [nextAt_eq hinit] at hrest
  have hidle : (initBlock c.params s.block).phase = .idle := by simpa using hi
  have hrun : runAt c (n + 1) s = .next (State.hold^[n] (s.serve.mapBlock (initBlock c.params))) := by
    rw [runAt_succ, nextAt_eq hinit, runAt_eq, iterate_nextAt_eq_hold hidle hnone hrest]
  have hblock := State.iterate_hold_block (s.serve.mapBlock (initBlock c.params)) n
  refine ⟨_, _, hinit.next, hrun, hblock, ?idle, ?config⟩
  case idle => exact hblock ▸ hidle
  case config => exact hblock ▸ (hinit.inv hinv).idleConfig c.valid hidle (initBlock_initDone _ _)

end Sys2Proof.Machine

/-! Proofs of the frame transmitter's family. What one cycle does at and before the end of each phase (R102–R111), what
becomes of a request while it is not accepted (R112, R117), the frame cycle by cycle from the acceptance of a SEND
(R108), and the byte read back from the line (R115). -/

namespace Sys2Proof.Machine

/-! ### One live cycle of a busy block -/

/-- A live cycle of a busy engine advances the block (R100). -/
theorem nextAt_of_busy {c : Configuration} {s : State} (hl : s.Live) (hb : s.block.phase ≠ .idle) :
    nextAt c s = s.hold.mapBlock (advance c.params s.now.draw) :=
  nextAt_eq (.busy hl hb)

theorem advance_within {p : Params} {b : Block} (draw : Bool) (h : b.cyc < phaseLen p b.phase - 1) :
    advance p draw b = { b with cyc := b.cyc + 1 } :=
  if_pos h

theorem advance_at_end {p : Params} {b : Block} (draw : Bool) (h : b.cyc = phaseLen p b.phase - 1) :
    advance p draw b = phaseEnd p draw b :=
  if_neg (by omega)

/-- The step of a live cycle that is the last of a busy phase ends the phase (R100). -/
theorem step_at_phase_end {s : State} {phase : Phase} (hl : s.Live) (hp : s.block.phase = phase)
    (hb : phase ≠ .idle) (hc : s.block.cyc = phaseLen Config.params phase - 1) :
    step s = .next { s.hold with block := phaseEnd Config.params s.now.draw s.block } := by
  subst hp
  rw [step_eq_stepAt, stepAt_eq, nextAt_of_busy hl hb, State.mapBlock, State.hold_block, advance_at_end _ hc]

theorem phaseEnd_setup {p : Params} {b : Block} (draw : Bool) (hp : b.phase = .setup) :
    phaseEnd p draw b = startEdge p b := by simp [phaseEnd, hp]

theorem phaseEnd_start {p : Params} {b : Block} (draw : Bool) (hp : b.phase = .start) :
    phaseEnd p draw b = firstDataBit p b := by simp [phaseEnd, hp]

theorem phaseEnd_data_of_lt {p : Params} {b : Block} (draw : Bool) (hp : b.phase = .data) (hi : b.bitIdx.val < 7) :
    phaseEnd p draw b = nextDataBit p b := by simp [phaseEnd, hp, hi]

theorem phaseEnd_data_last {p : Params} {b : Block} (draw : Bool) (hp : b.phase = .data) (hi : b.bitIdx = 7) :
    phaseEnd p draw b = stopEdge p b := by simp [phaseEnd, hp, hi]

theorem phaseEnd_stop {p : Params} {b : Block} (draw : Bool) (hp : b.phase = .stop) :
    phaseEnd p draw b = endStop draw b := by simp [phaseEnd, hp]

theorem phaseEnd_teardown {p : Params} {b : Block} (draw : Bool) (hp : b.phase = .teardown) :
    phaseEnd p draw b = endTeardown p b := by simp [phaseEnd, hp]

theorem restoreGie_of_saved {saved : Bool} (draw : Bool) (h : saved = true) : restoreGie saved draw = true := by
  simp [restoreGie, h]

theorem restoreGie_of_not_saved {saved : Bool} (draw : Bool) (h : saved = false) : restoreGie saved draw = draw := by
  simp [restoreGie, h]

/-- Settles O28: the step advances the block, which within a phase only counts. -/
theorem withinPhaseOnlyCounts : Obligations.WithinPhaseOnlyCounts := by
  intro c s hl hb hc
  rw [stepAt_eq, nextAt_of_busy hl hb, State.mapBlock, State.hold_block, advance_within _ hc]

/-- Settles O29, by R104's phase end. -/
theorem endOfSetupIsTheStartEdge : Obligations.EndOfSetupIsTheStartEdge := by
  intro s hl hp hc
  rw [step_at_phase_end hl hp Phase.noConfusion hc, phaseEnd_setup _ hp, startEdge_eq]

/-- Settles O30, by R105's phase end. -/
theorem endOfStartPutsBitZero : Obligations.EndOfStartPutsBitZero := by
  intro s hl hp hc
  rw [step_at_phase_end hl hp Phase.noConfusion hc, phaseEnd_start _ hp, firstDataBit_eq, dataBit]

/-- Settles O31, by R106's phase end: the index below 7 does not wrap. -/
theorem endOfDataBitPutsTheNext : Obligations.EndOfDataBitPutsTheNext := by
  intro s hl hp hc hi
  have hstep := step_at_phase_end hl hp Phase.noConfusion hc
  rw [phaseEnd_data_of_lt _ hp hi, nextDataBit_eq, dataBit] at hstep
  exact ⟨_, hstep, bitIdx_succ_val hi, rfl⟩

/-- Settles O32, by R107's phase end. -/
theorem endOfLastDataBitIsTheStopEdge : Obligations.EndOfLastDataBitIsTheStopEdge := by
  intro s hl hp hc hi
  rw [step_at_phase_end hl hp Phase.noConfusion hc, phaseEnd_data_last _ hp hi, stopEdge_eq]

/-- Settles O33, by R109's phase end and the two cases of R110. -/
theorem endOfStopRestoresTheEnable : Obligations.EndOfStopRestoresTheEnable := by
  intro s hl hp hc
  rw [step_at_phase_end hl hp Phase.noConfusion hc, phaseEnd_stop _ hp, endStop_eq]
  exact ⟨fun hsaved => by rw [restoreGie_of_saved _ hsaved], fun hsaved => by rw [restoreGie_of_not_saved _ hsaved]⟩

/-- A register with one pin's bit cleared under a condition, read at any pin. -/
theorem get_ite_put_false (P : Prop) [Decidable P] (r : PinSet) (pin other : Nat) :
    (if P then r.put pin false else r).get other = if P ∧ other = pin then false else r.get other := by
  by_cases hP : P
  · simp only [hP, if_true, true_and, PinSet.get_put]
  · simp only [hP, if_false, false_and]

/-- Settles O34, by R111's phase end, read pin by pin. -/
theorem endOfTeardownReleases : Obligations.EndOfTeardownReleases := by
  intro s hl hp hc
  have hstep := step_at_phase_end hl hp Phase.noConfusion hc
  rw [phaseEnd_teardown _ hp, endTeardown_eq] at hstep
  exact ⟨_, hstep, rfl, get_ite_put_false _ _ _, get_ite_put_false _ _ _⟩

/-! ### Requests that are not accepted, and those that are -/

/-- A cycle that accepts no request keeps the host's program but for a WAIT's count (R37, R38). -/
theorem StepCase.program_of_not_accepting {c : Configuration} {s t : State} (h : StepCase c s t)
    (ha : s.accepting = false) : t.program = keepProgram s.program := by
  have hno : s.Live → s.block.phase ≠ .idle := fun hl hi => by
    simp [s.accepting_iff.mpr ⟨hl, hi⟩] at ha
  cases h with
  | reset => rfl
  | stall => rfl
  | busy => rfl
  | none => rfl
  | setGie hl hi => exact absurd hi (hno hl)
  | command hl hi => exact absurd hi (hno hl)
  | illegal hl hi => exact absurd hi (hno hl)

/-- A cycle that accepts a request takes it from the host's program (R37, R38). -/
theorem StepCase.program_of_accepting {c : Configuration} {s t : State} (h : StepCase c s t)
    (ha : s.accepting = true) (hq : s.request ≠ .none) : t.program = serveProgram s.program := by
  obtain ⟨⟨hrst, hstalled⟩, hidle⟩ := s.accepting_iff.mp ha
  cases h with
  | reset hr => simp [hrst] at hr
  | stall _ hs => simp [hstalled] at hs
  | busy _ hb => exact absurd hidle hb
  | none _ _ hn => exact absurd hn hq
  | setGie => rfl
  | command => rfl
  | illegal => rfl

/-- A request that is not accepted is presented again. -/
theorem StepCase.request_of_not_accepting {c : Configuration} {s t : State} (h : StepCase c s t)
    (ha : s.accepting = false) (hq : s.request ≠ .none) : t.request = s.request := by
  rw [State.request, h.program_of_not_accepting ha]
  exact present_keepProgram hq

theorem State.accepting_of_busy {s : State} (hb : s.block.phase ≠ .idle) : s.accepting = false :=
  Bool.eq_false_iff.mpr fun ha => hb (s.accepting_iff.mp ha).2

theorem State.accepting_of_stalled {s : State} (hs : s.stalled = true) : s.accepting = false := by
  simp [State.accepting, State.cmdReady, hs]

/-- The block after a busy cycle, which the host's program has no part in (R117). -/
theorem nextAt_block_of_busy {c : Configuration} {s : State} (hb : s.block.phase ≠ .idle) :
    (nextAt c s).block =
      if s.now.rst then resetBlock c.params s.block
      else if s.stalled then s.block
      else advance c.params s.now.draw s.block := by
  have hcase := nextAt_case c s
  generalize nextAt c s = t at hcase ⊢
  cases hcase with
  | reset hr => rw [if_pos hr]; rfl
  | stall hr hs => rw [hr, if_neg Bool.false_ne_true, if_pos hs, State.hold_block]
  | busy hl =>
    obtain ⟨hr, hs⟩ := hl
    rw [hr, hs, if_neg Bool.false_ne_true, if_neg Bool.false_ne_true, State.mapBlock_block, State.hold_block]
  | none _ hi => exact absurd hi hb
  | setGie _ hi => exact absurd hi hb
  | command _ hi => exact absurd hi hb
  | illegal _ hi => exact absurd hi hb

/-- Settles O25: a stalled cycle is a hold, and so is an idle one without a request. -/
theorem idleOrStalledCycleHolds : Obligations.IdleOrStalledCycleHolds := by
  rintro s hr (⟨hi, hq⟩ | hs)
  · have hcase := nextAt_case Config.configuration s
    refine ⟨_, (step_eq_stepAt s).trans (stepAt_eq _ s), ?_, fun h => absurd hq h⟩
    rw [hcase.eq_hold hi hq hr, State.hold_block]
  · have hcase : StepCase Config.configuration s s.hold := .stall hr hs
    exact ⟨_, (step_eq_stepAt s).trans hcase.next, rfl,
      hcase.request_of_not_accepting (State.accepting_of_stalled hs)⟩

/-- Settles O26: the block after a busy cycle depends on the block and the inputs alone. -/
theorem requestsWhileBusyAreHeld : Obligations.RequestsWhileBusyAreHeld := by
  constructor
  · intro s other hb
    have hblock : (nextAt Config.configuration { s with program := other }).block =
        (nextAt Config.configuration s).block :=
      (nextAt_block_of_busy (s := { s with program := other }) hb).trans (nextAt_block_of_busy hb).symm
    exact ⟨_, _, (step_eq_stepAt s).trans (stepAt_eq _ s), (step_eq_stepAt _).trans (stepAt_eq _ _), hblock,
      (nextAt_case _ s).request_of_not_accepting (State.accepting_of_busy hb)⟩
  · intro s hr hi hs hq
    have ha : s.accepting = true := s.accepting_iff.mpr ⟨⟨hr, hs⟩, hi⟩
    exact ⟨ha, _, (step_eq_stepAt s).trans (stepAt_eq _ s),
      (nextAt_case Config.configuration s).program_of_accepting ha hq⟩

/-! ### The pre-idle, from the acceptance of a SEND to the start edge -/

section Frame

variable {c : Configuration} {v : Byte} {s : State}

/-- A SEND accepted in this cycle is in the first cycle of its pre-idle in the next one (R101). -/
theorem InSetup.of_accepted_send (ha : s.accepting = true) (hq : s.request = .cmd (encode (.send v))) :
    InSetup c.params v 0 (nextAt c s).block := by
  rw [nextAt_eq (.of_accepted ha hq (decode_encode_send v))]
  exact .send c.valid v _

theorem InSetup.drive {p : Params} {j : Nat} {b : Block} (h : InSetup p v j b) :
    b.drive p.txPin = .level .high := drive_of_get h.dir h.out

theorem InSetup.busy {p : Params} {j : Nat} {b : Block} (h : InSetup p v j b) : b.phase ≠ .idle := by
  simp [h.phase]

/-- A stalled cycle of the pre-idle is a hold. -/
theorem InSetup.next_of_stalled {j : Nat} (h : InSetup c.params v j s.block) (hr : s.now.rst = false)
    (hs : s.stalled = true) : InSetup c.params v j (nextAt c s).block := by
  rw [nextAt_eq (.stall hr hs)]
  exact h

/-- A live cycle of the pre-idle that is not its last counts. -/
theorem InSetup.next_of_live {j : Nat} (h : InSetup c.params v j s.block) (hl : s.Live)
    (hj : j + 1 < c.params.setupCycles) : InSetup c.params v (j + 1) (nextAt c s).block := by
  rw [nextAt_of_busy hl h.busy]
  exact h.count _ hj

/-- The last live cycle of the pre-idle leads to the start bit. -/
theorem InSetup.startEdge_of_live {j : Nat} (h : InSetup c.params v j s.block) (hl : s.Live)
    (hj : j + 1 = c.params.setupCycles) : InSlot c.params v 0 0 (nextAt c s).block := by
  rw [nextAt_of_busy hl h.busy]
  exact h.startEdge c.valid _ hj

theorem InSlot.not_stalled {k j : Nat} (h : InSlot c.params v k j s.block) : s.stalled = false :=
  h.stallEff _

/-- If of the next n cycles all but the stalled ones are just those the pre-idle still needs, then it lasts for these n
cycles, and the start bit follows. As no cycle of a slot is stalled, the start edge cannot come before the n-th. -/
theorem InSetup.run {n j : Nat} (h : InSetup c.params v j s.block) (hr : NoReset n s)
    (hn : n + j = c.params.setupCycles + stallsIn c n s) :
    (∀ m, m < n → ∃ i, InSetup c.params v i ((nextAt c)^[m] s).block) ∧
      InSlot c.params v 0 0 ((nextAt c)^[n] s).block := by
  induction n generalizing s j with
  | zero =>
    have := h.lt
    simp only [stallsIn] at hn
    omega
  | succ n ih =>
    obtain ⟨hnow, hrest⟩ := (noReset_next (c := c)).mp hr
    rw [stallsIn_succ] at hn
    rw [Function.iterate_succ_apply]
    by_cases hs : s.stalled = true
    · rw [if_pos hs] at hn
      obtain ⟨hpre, hslot⟩ := ih (h.next_of_stalled hnow hs) hrest (by omega)
      exact ⟨Nat.forall_lt_succ_left.mpr ⟨⟨j, h⟩, hpre⟩, hslot⟩
    · have hl : s.Live := ⟨hnow, by simpa using hs⟩
      rw [if_neg hs] at hn
      rcases Nat.lt_or_eq_of_le (Nat.succ_le_of_lt h.lt) with hj | hj
      · obtain ⟨hpre, hslot⟩ := ih (h.next_of_live hl hj) hrest (by omega)
        exact ⟨Nat.forall_lt_succ_left.mpr ⟨⟨j, h⟩, hpre⟩, hslot⟩
      · have hslot := h.startEdge_of_live hl hj
        have hn0 : n = 0 := by
          by_contra hpos
          have := stallsIn_lt (c := c) hslot.not_stalled (Nat.pos_of_ne_zero hpos)
          omega
        subst hn0
        exact ⟨Nat.forall_lt_succ_left.mpr ⟨⟨j, h⟩, fun m hm => absurd hm m.not_lt_zero⟩, hslot⟩

/-! ### The ten slots -/

theorem InSlot.live {k j : Nat} (h : InSlot c.params v k j s.block) (hr : s.now.rst = false) : s.Live :=
  ⟨hr, h.not_stalled⟩

/-- A cycle of a slot that is not its last. -/
theorem InSlot.next_within {k j : Nat} (h : InSlot c.params v k j s.block) (hr : s.now.rst = false)
    (hj : j + 1 < c.params.bitCycles) : InSlot c.params v k (j + 1) (nextAt c s).block := by
  rw [nextAt_of_busy (h.live hr) h.busy]
  exact h.count _ hj

/-- The last cycle of a slot other than the stop bit. -/
theorem InSlot.next_slot {k j : Nat} (h : InSlot c.params v k j s.block) (hr : s.now.rst = false)
    (hj : j + 1 = c.params.bitCycles) (hk : k < 9) : InSlot c.params v (k + 1) 0 (nextAt c s).block := by
  rw [nextAt_of_busy (h.live hr) h.busy]
  exact h.nextSlot _ hj hk

/-- The cycles of one slot. -/
theorem InSlot.run_within {k j : Nat} (h : InSlot c.params v k 0 s.block) (hr : NoReset j s)
    (hj : j < c.params.bitCycles) : InSlot c.params v k j ((nextAt c)^[j] s).block := by
  induction j with
  | zero => exact h
  | succ j ih =>
    rw [Function.iterate_succ_apply']
    have hnow := ((noReset_next (c := c)).mp (hr.after (c := c) (m := j) (n := 1))).1
    exact (ih (hr.mono j.le_succ) (Nat.lt_of_succ_lt hj)).next_within hnow hj

/-- One whole slot, to the first cycle of the next. -/
theorem InSlot.run_slot {k : Nat} (h : InSlot c.params v k 0 s.block) (hr : NoReset c.params.bitCycles s)
    (hk : k < 9) : InSlot c.params v (k + 1) 0 ((nextAt c)^[c.params.bitCycles] s).block := by
  obtain ⟨j, hj⟩ : ∃ j, c.params.bitCycles = j + 1 := Nat.exists_eq_succ_of_ne_zero (Nat.ne_of_gt c.valid.1.1)
  rw [hj] at hr ⊢
  rw [Function.iterate_succ_apply']
  have hnow := ((noReset_next (c := c)).mp (hr.after (c := c) (m := j) (n := 1))).1
  exact (h.run_within (hr.mono j.le_succ) (by omega)).next_slot hnow hj.symm hk

/-- k whole slots, from the first cycle of the start bit. -/
theorem InSlot.run_slots {k : Nat} (h : InSlot c.params v 0 0 s.block) (hr : NoReset (k * c.params.bitCycles) s)
    (hk : k ≤ 9) : InSlot c.params v k 0 ((nextAt c)^[k * c.params.bitCycles] s).block := by
  induction k with
  | zero => simpa using h
  | succ k ih =>
    rw [Nat.succ_mul] at hr ⊢
    rw [Nat.add_comm _ c.params.bitCycles, Function.iterate_add_apply]
    exact (ih (hr.mono (Nat.le_add_right _ _)) (Nat.le_of_lt hk)).run_slot hr.after hk

/-- From the first cycle of the start bit, cycle j of slot k comes after k slots of B cycles and j more (R108). -/
theorem InSlot.run {k j : Nat} (h : InSlot c.params v 0 0 s.block)
    (hr : NoReset (k * c.params.bitCycles + j) s) (hk : k ≤ 9) (hj : j < c.params.bitCycles) :
    InSlot c.params v k j ((nextAt c)^[k * c.params.bitCycles + j] s).block := by
  rw [Nat.add_comm, Function.iterate_add_apply]
  exact (h.run_slots (hr.mono (Nat.le_add_right _ j)) hk).run_within hr.after hj

/-! ### The whole frame -/

/-- The pre-idle of an accepted SEND, with the acceptance cycle before it: it lasts for the S + σ cycles from the first
after acceptance on, and then slot 0 begins. -/
theorem send_run_setup {σ : Nat} (ha : s.accepting = true) (hq : s.request = .cmd (encode (.send v)))
    (hσ : stallsIn c (1 + c.params.setupCycles + σ) s = σ) (hr : NoReset (1 + c.params.setupCycles + σ) s) :
    (∀ n, 1 ≤ n → n ≤ c.params.setupCycles + σ → ∃ i, InSetup c.params v i ((nextAt c)^[n] s).block) ∧
      InSlot c.params v 0 0 ((nextAt c)^[1 + c.params.setupCycles + σ] s).block := by
  have hlen : 1 + c.params.setupCycles + σ = c.params.setupCycles + σ + 1 := by omega
  obtain ⟨⟨-, hlive⟩, -⟩ := s.accepting_iff.mp ha
  rw [hlen] at hσ hr ⊢
  rw [stallsIn_succ, hlive, if_neg Bool.false_ne_true, Nat.zero_add] at hσ
  obtain ⟨hpre, hslot⟩ := (InSetup.of_accepted_send (c := c) ha hq).run (noReset_next.mp hr).2 (by omega)
  rw [Function.iterate_succ_apply]
  refine ⟨fun n h1 hn => ?_, hslot⟩
  obtain ⟨m, rfl⟩ : ∃ m, n = m + 1 := ⟨n - 1, by omega⟩
  exact hpre m (by omega)

/-- Cycle j of slot k of the frame of an accepted SEND (R108). -/
theorem send_run_slot {σ k j : Nat} (ha : s.accepting = true) (hq : s.request = .cmd (encode (.send v)))
    (hσ : stallsIn c (1 + c.params.setupCycles + σ) s = σ)
    (hr : NoReset (1 + c.params.setupCycles + σ + 10 * c.params.bitCycles) s)
    (hk : k ≤ 9) (hj : j < c.params.bitCycles) :
    InSlot c.params v k j
      ((nextAt c)^[1 + c.params.setupCycles + σ + k * c.params.bitCycles + j] s).block := by
  obtain ⟨-, hslot⟩ := send_run_setup ha hq hσ (hr.mono (Nat.le_add_right _ _))
  have hlen : k * c.params.bitCycles + j ≤ 10 * c.params.bitCycles := by
    have := Nat.mul_le_mul_right c.params.bitCycles hk
    omega
  rw [Nat.add_assoc, Nat.add_comm, Function.iterate_add_apply]
  exact hslot.run (hr.after.mono hlen) hk hj

end Frame

/-- Settles O50, from where the block stands in the frame in each cycle after the acceptance. -/
theorem frameTiming : Obligations.FrameTiming := by
  intro c s v σ ha hq hσ hr
  constructor
  · intro k j hk hj
    have hslot := send_run_slot ha hq hσ hr hk hj
    exact ⟨_, runAt_eq c _ s, hslot.drive, hslot.gie, hslot.cs, hslot.not_stalled⟩
  · intro n h1 hn
    obtain ⟨i, hsetup⟩ := (send_run_setup (c := c) ha hq hσ (hr.mono (Nat.le_add_right _ _))).1 n h1 hn
    exact ⟨_, runAt_eq c n s, hsetup.drive⟩

/-! ### The reference decoder -/

/-- What the reference decoder has read after n data slots. -/
def readBits (sample : Nat → Level) (n : Nat) : Byte :=
  (List.range n).foldl (fun v k => if sample (k + 1) = .high then v ||| 1#8 <<< k else v) 0#8

theorem refDecode_eq (sample : Nat → Level) :
    refDecode sample = if sample 0 = .low ∧ sample 9 = .high then some (readBits sample 8) else none := rfl

theorem readBits_succ (sample : Nat → Level) (n : Nat) :
    readBits sample (n + 1) =
      if sample (n + 1) = .high then readBits sample n ||| 1#8 <<< n else readBits sample n := by
  simp [readBits, List.range_succ]

/-- Each data slot read as high sets its own bit, and no slot clears one. -/
theorem readBits_getLsbD (sample : Nat → Level) (n : Nat) {i : Nat} (hi : i < 8) :
    (readBits sample n).getLsbD i = true ↔ i < n ∧ sample (i + 1) = .high := by
  induction n with
  | zero => simp [readBits]
  | succ n ih =>
    have hlt : i < n + 1 ↔ i < n ∨ n = i := by omega
    rw [readBits_succ, hlt, or_and_right]
    split
    next hs =>
      have hown : n < 8 ∧ n = i ↔ n = i ∧ sample (i + 1) = .high :=
        ⟨fun ⟨_, e⟩ => ⟨e, e ▸ hs⟩, fun ⟨e, _⟩ => ⟨e ▸ hi, e⟩⟩
      rw [BitVec.getLsbD_or, Bool.or_eq_true, ih, ← BitVec.twoPow_eq, BitVec.getLsbD_twoPow, Bool.and_eq_true,
        decide_eq_true_iff, decide_eq_true_iff, hown]
    next hs =>
      have hown : ¬(n = i ∧ sample (i + 1) = .high) := fun ⟨e, h⟩ => hs (e ▸ h)
      rw [ih, or_iff_left hown]

theorem levelOf_eq_high_iff (b : Bool) : levelOf b = .high ↔ b = true := by cases b <;> simp [levelOf]

/-- R115: from samples that are the slots of the frame of v, the decoder answers v. -/
theorem refDecode_of_slots {sample : Nat → Level} {v : Byte} (h : ∀ k, k ≤ 9 → sample k = slotLevel v k) :
    refDecode sample = some v := by
  have hstart : sample 0 = .low := h 0 (by omega)
  have hstop : sample 9 = .high := h 9 (by omega)
  have hbits : readBits sample 8 = v := by
    refine BitVec.eq_of_getLsbD_eq fun i hi => ?_
    rw [Bool.eq_iff_iff, readBits_getLsbD sample 8 hi, h (i + 1) (by omega), slotLevel, slotBit_data v hi,
      levelOf_eq_high_iff, and_iff_right hi]
  rw [refDecode_eq, if_pos ⟨hstart, hstop⟩, hbits]

/-- Where the block drives a pin, the line is at the driven level (R36). -/
theorem State.line_of_drive {s : State} {pin : Nat} {l : Level} (h : s.block.drive pin = .level l) :
    s.line pin = l := by simp [State.line, h]

theorem lineAfter_eq (c : Configuration) (n : Nat) (s : State) (pin : Nat) :
    lineAfter c n s pin = ((nextAt c)^[n] s).line pin := by simp [lineAfter, runAt_eq]

/-- Settles O51: each sample falls in a cycle of its slot, where the line is at the slot's level. -/
theorem referenceDecoderRecoversTheByte : Obligations.ReferenceDecoderRecoversTheByte := by
  intro c s v σ h ha hq hσ hr hh
  refine refDecode_of_slots fun k hk => ?_
  rw [lineAfter_eq]
  exact State.line_of_drive (send_run_slot ha hq hσ hr hk hh).drive

end Sys2Proof.Machine

/-! Proofs of the exceptions' family. An illegal word is recorded and changes nothing else (R144), a repeated INIT is
recorded and makes its writes again (R143), and the slots of a frame are exact whatever the environment does short of
a reset (R148). -/

namespace Sys2Proof.Machine

/-! ### Illegal words -/

/-- The words of R73, as numbers: those that are neither INIT's word nor in SEND's range. -/
theorem decode_illegal_of_range {w : Word} (hinit : w ≠ 0x0100#16) (hsend : ¬(0x0200 ≤ w.toNat ∧ w.toNat ≤ 0x02FF)) :
    ∃ why, decode w = .illegal why := by
  have hw : w.toNat ≠ 0x0100 := fun h => hinit (BitVec.eq_of_toNat_eq h)
  rw [decode_illegal_iff, opcode_eq_iff, operand_eq_iff, ne_eq, opcode_eq_iff]
  simp only [BitVec.toNat_ofNat]
  omega

/-- An accepted word that is illegal is taken from the host's program and recorded (R144). -/
theorem StepCase.of_accepted_illegal {c : Configuration} {s : State} {w : Word} {why : Illegal}
    (ha : s.accepting = true) (hq : s.request = .cmd w) (hd : decode w = .illegal why) :
    StepCase c s (s.serve.mapBlock fun b => b.raise (.illegalCommand w)) := by
  obtain ⟨hl, hi⟩ := s.accepting_iff.mp ha
  exact .illegal hl hi w why hq hd

theorem Block.mem_raise_faults (b : Block) (f g : ModelFault) : g ∈ (b.raise f).faults ↔ g ∈ b.faults ∨ g = f := by
  rw [Block.raise_faults, mem_insertFault, or_comm]

/-- Settles O21: the step of an accepted illegal word records it, and recording touches `FAULTS` alone. -/
theorem illegalWordOnlyRecorded : Obligations.IllegalWordOnlyRecorded := by
  intro s w ha hq hinit hsend
  obtain ⟨why, hd⟩ := decode_illegal_of_range hinit hsend
  have hstep := (StepCase.of_accepted_illegal (c := Config.configuration) ha hq hd).next
  exact ⟨_, (step_eq_stepAt s).trans hstep, s.block.mem_raise_faults _, rfl⟩

/-! ### A repeated INIT -/

/-- INIT as one update: the fields it writes, every other field kept (R90, R92, R93). -/
theorem initBlock_eq (p : Params) (b : Block) :
    initBlock p b =
      { b with
        faults := if b.initDone then insertFault .initRepeated b.faults else b.faults
        dir := (initBlock p b).dir, out := (initBlock p b).out
        pue := b.pue.put p.rxPin false
        pcmsk := if p.rxIrq then b.pcmsk.put p.rxPin true else b.pcmsk
        pcie := if p.rxIrq then true else b.pcie
        initDone := true } := by
  unfold initBlock initHook initPins
  cases p.wiring <;> cases p.rxIrq <;> cases b.initDone <;> rfl

/-- With `INIT_DONE = 1`, INIT makes the writes it makes with `INIT_DONE = 0`, and is recorded (R143). -/
theorem initBlock_of_initDone {p : Params} {b : Block} (hd : b.initDone = true) :
    initBlock p b = (initBlock p { b with initDone := false }).raise .initRepeated := by
  have hdir : (initBlock p b).dir = (initBlock p { b with initDone := false }).dir :=
    PinSet.ext_get fun pin => by rw [initBlock_dir, initBlock_dir]
  have hout : (initBlock p b).out = (initBlock p { b with initDone := false }).out :=
    PinSet.ext_get fun pin => by rw [initBlock_out, initBlock_out]
  rw [initBlock_eq p b, initBlock_eq p { b with initDone := false }, hdir, hout, if_pos hd]
  rfl

/-- INIT writes the same values again, so a second INIT changes nothing but `FAULTS` (R143). -/
theorem initBlock_initBlock (p : Params) (b : Block) :
    initBlock p (initBlock p b) = (initBlock p b).raise .initRepeated := by
  have hdir : (initBlock p (initBlock p b)).dir = (initBlock p b).dir :=
    PinSet.ext_get fun pin => by simp only [initBlock_dir]; split_ifs <;> rfl
  have hout : (initBlock p (initBlock p b)).out = (initBlock p b).out :=
    PinSet.ext_get fun pin => by simp only [initBlock_out]; split_ifs <;> rfl
  have hpue : (initBlock p b).pue.put p.rxPin false = (initBlock p b).pue :=
    PinSet.put_of_get (by rw [initBlock_pue, PinSet.get_put_same])
  have hpcmsk : (if p.rxIrq then (initBlock p b).pcmsk.put p.rxPin true else (initBlock p b).pcmsk) =
      (initBlock p b).pcmsk := by
    split
    next hr => exact PinSet.put_of_get (by rw [initBlock_pcmsk, if_pos hr, PinSet.get_put_same])
    next => rfl
  have hpcie : (if p.rxIrq then true else (initBlock p b).pcie) = (initBlock p b).pcie := by
    rw [initBlock_pcie]; split <;> rfl
  rw [initBlock_eq p (initBlock p b), hdir, hout, hpue, hpcmsk, hpcie, if_pos (initBlock_initDone p b)]
  rfl

/-- Settles O11: a repeated INIT is the first INIT's writes with the fault recorded, and after an INIT it is the
recording alone. -/
theorem repeatedInitChangesNoPin : Obligations.RepeatedInitChangesNoPin := by
  constructor
  case left =>
    intro s hd
    refine ⟨_, _, exec_init s, exec_init _, (mem_initBlock_faults _ _ _).mpr (.inr ⟨hd, rfl⟩), ?_⟩
    rw [State.mapBlock, initBlock_of_initDone hd]
    rfl
  case right =>
    intro s t ht
    rw [exec_init] at ht
    obtain rfl : s.mapBlock (initBlock Config.params) = t := Host.Outcome.next.inj ht
    have hagain := initBlock_initBlock Config.params s.block
    refine ⟨_, exec_init _, ?recorded, fun f hf => ?only, ?frame⟩
    case recorded => exact (mem_initBlock_faults _ _ _).mpr (.inr ⟨rfl, rfl⟩)
    case only => exact ((mem_initBlock_faults _ _ f).mp hf).imp_right And.right
    case frame =>
      rw [State.mapBlock, State.mapBlock_block, hagain]
      rfl

/-! ### The slots from the start edge -/

/-- A block that meets the invariant at the start edge is in the first cycle of slot 0 of the frame of its byte: the
invariant gives the critical section and the drive of the TX pin (R22, R41). -/
theorem Block.Inv.inSlot_of_start {p : Params} {b : Block} (h : b.Inv p) (hp : b.phase = .start) (hc : b.cyc = 0) :
    InSlot p b.txByte 0 0 b := by
  have hb : b.phase ≠ .idle := by simp [hp]
  have hcs : b.cs = true := h.cs_iff.mpr (.inl hp)
  obtain ⟨hdir, hout⟩ := h.tx_driven hb
  exact {
    phase := .inl ⟨rfl, hp⟩
    cyc := hc
    lt := by simpa [hp, hc, phaseLen] using h.cyc_lt hb
    byte := rfl
    cs := hcs
    gie := h.cs_gie hcs
    dir := hdir
    out := by simpa [phaseBit, hp, slotBit_start] using hout }

/-- Ten slots of B cycles from the first cycle of the start bit, the critical section is over (R108, R109). -/
theorem InSlot.run_to_teardown {c : Configuration} {v : Byte} {s : State} (h : InSlot c.params v 0 0 s.block)
    (hr : NoReset (10 * c.params.bitCycles) s) :
    ((nextAt c)^[10 * c.params.bitCycles] s).block.phase = .teardown ∧
      ((nextAt c)^[10 * c.params.bitCycles] s).block.cs = false := by
  obtain ⟨j, hj⟩ : ∃ j, c.params.bitCycles = j + 1 := Nat.exists_eq_succ_of_ne_zero (Nat.ne_of_gt c.valid.1.1)
  have hlen : 10 * c.params.bitCycles = 9 * c.params.bitCycles + j + 1 := by omega
  rw [hlen] at hr ⊢
  have hlast := h.run (k := 9) (j := j) (hr.mono (Nat.le_succ _)) (Nat.le_refl 9) (by omega)
  have hnow := ((noReset_next (c := c)).mp (hr.after (c := c) (n := 1))).1
  rw [Function.iterate_succ_apply', nextAt_of_busy (hlast.live hnow) hlast.busy]
  exact hlast.endStop _ hj.symm

/-- Settles O52: the invariant puts the block at the head of slot 0, and from there each cycle has its slot. -/
theorem slotsAreExact : Obligations.SlotsAreExact := by
  intro c s hinv hp hc hr
  have hstart := hinv.inSlot_of_start hp hc
  constructor
  case left =>
    intro k j hk hj
    have hlen : k * c.params.bitCycles + j ≤ 10 * c.params.bitCycles := by
      have := Nat.mul_le_mul_right c.params.bitCycles hk
      omega
    have hslot := hstart.run (hr.mono hlen) hk hj
    exact ⟨_, runAt_eq c _ s, hslot.drive, hslot.cs, hslot.gie, hslot.stallEff⟩
  case right => exact ⟨_, runAt_eq c _ s, hstart.run_to_teardown hr⟩

end Sys2Proof.Machine

/-! Proofs of the family of reset and hazards. What a reset event leaves of the block (R170), and the launch state kept
by cycles with a reset or an effective stall (R172). -/

namespace Sys2Proof.Machine

/-! ### The reset event -/

/-- A reset event resets the block and is a hold otherwise (R170, R171). -/
@[simp] theorem State.afterReset_block (p : Params) (s : State) : (s.afterReset p).block = resetBlock p s.block := rfl

/-- The launch block is the reset block of itself: `FAULTS`, which a reset keeps, is empty at launch (R172). -/
@[simp] theorem resetBlock_reset (p : Params) : resetBlock p (Block.reset p) = Block.reset p := rfl

/-- A port register after a reset event reads, pin by pin, as the parameter it is reset to (R170; log 2). -/
theorem resetBlock_ports_get (p : Params) (b : Block) (pin : Nat) :
    (resetBlock p b).dir.get pin = p.rstDir.getLsbD pin ∧ (resetBlock p b).out.get pin = p.rstOut.getLsbD pin ∧
    (resetBlock p b).pue.get pin = p.rstPue.getLsbD pin ∧ (resetBlock p b).pcmsk.get pin = p.rstPcmsk.getLsbD pin :=
  ⟨PinSet.get_ofBitVec _ _, PinSet.get_ofBitVec _ _, PinSet.get_ofBitVec _ _, PinSet.get_ofBitVec _ _⟩

/-- In IDLE a cycle without a reset or an effective stall accepts a request (R38). -/
theorem State.accepting_of_idle {s : State} (hi : s.block.phase = .idle) (hr : s.now.rst = false)
    (hs : s.stalled = false) : s.accepting = true :=
  s.accepting_iff.mpr ⟨⟨hr, hs⟩, hi⟩

/-- Settles O23: the step of a reset cycle is the reset event, whose block has R170's values and is in IDLE. -/
theorem resetEventSetsEveryField : Obligations.ResetEventSetsEveryField := by
  intro s hr
  have hreset := (StepCase.reset (c := Config.configuration) hr).next
  exact ⟨_, (step_eq_stepAt s).trans hreset, rfl, rfl, rfl, rfl, rfl, rfl, rfl, rfl,
    fun pin _ => resetBlock_ports_get Config.params s.block pin, rfl, rfl, State.accepting_of_idle rfl⟩

/-! ### The launch state -/

/-- The launch block of this machine (R172). -/
@[simp] theorem State.reset_block : State.reset.block = Block.reset Config.params := rfl

/-- A cycle with a reset or an effective stall keeps the launch block: the one sets it, the other holds it (R146, R170;
log 2). -/
theorem nextAt_block_of_launch {c : Configuration} {s : State} (hb : s.block = Block.reset c.params)
    (h : s.now.rst = true ∨ s.stalled = true) : (nextAt c s).block = Block.reset c.params := by
  cases hr : s.now.rst with
  | true => rw [nextAt_eq (.reset hr), State.afterReset_block, hb, resetBlock_reset]
  | false =>
    have hs : s.stalled = true := h.resolve_left (by simp [hr])
    rw [nextAt_eq (.stall hr hs), State.hold_block, hb]

/-- Any number of such cycles. -/
theorem iterate_nextAt_block_of_launch {c : Configuration} {s : State} {n : Nat} (hb : s.block = Block.reset c.params)
    (h : ∀ i, i < n → ((nextAt c)^[i] s).now.rst = true ∨ ((nextAt c)^[i] s).stalled = true) :
    ((nextAt c)^[n] s).block = Block.reset c.params := by
  induction n with
  | zero => exact hb
  | succ n ih =>
    rw [Function.iterate_succ_apply']
    exact nextAt_block_of_launch (ih fun i hi => h i (Nat.lt_succ_of_lt hi)) (h n n.lt_succ_self)

/-- The state a run reaches is the one that many cycles on. -/
theorem runAt_eq_next_iff {c : Configuration} {n : Nat} {s t : State} :
    runAt c n s = .next t ↔ (nextAt c)^[n] s = t := by
  rw [runAt_eq, Host.Outcome.next.injEq]

/-- Settles O24: the launch block is kept through the cycles with a reset or a stall, and it is in IDLE. -/
theorem launchState : Obligations.LaunchState := by
  refine ⟨rfl, (resetBlock_reset _).symm, rfl, rfl, fun program env s n hlaunch hcycles => ?run⟩
  have hb : s.block = Block.reset Config.params := by rw [hlaunch, State.reset_block]
  have hkeep : ((nextAt Config.configuration)^[n] s).block = Block.reset Config.params :=
    iterate_nextAt_block_of_launch hb fun i hi => by
      obtain ⟨u, hu, hcycle⟩ := hcycles i hi
      rwa [runAt_eq_next_iff.mp hu]
  have hidle : ((nextAt Config.configuration)^[n] s).block.phase = .idle := by rw [hkeep]; rfl
  exact ⟨_, runAt_eq _ n s, hkeep, State.cmdReady_of_idle hidle, State.accepting_of_idle hidle⟩

end Sys2Proof.Machine

/-! Proofs about frames as a whole: every step keeps the invariant of the block, a busy engine comes one cycle nearer to
IDLE in each cycle that is neither stalled nor a reset, and from that the busy duration of a SEND (R114) and the end of
every frame under fair stalls (R147). -/

namespace Sys2Proof.Machine

/-- The step of this machine falls under one of the cases of R100. -/
theorem stepCase_of_step {s t : State} (h : step s = .next t) : StepCase Config.configuration s t :=
  stepCase_of_next (step_eq_stepAt s ▸ h)

/-- Settles O35: the launch block meets the invariant, and neither a program nor an environment is part of it. -/
theorem invariantAtReset : Obligations.InvariantAtReset := fun _ _ => Block.reset_inv Config.params

/-- Settles O36: each case of a step keeps the invariant. -/
theorem stepKeepsTheInvariant : Obligations.StepKeepsTheInvariant := by
  intro s t hinv hs
  exact (stepCase_of_step hs).inv hinv

/-! ### How far a busy engine is from IDLE -/

/-- R23's bound on the cycle counter, the one part of the invariant that the durations rest on. -/
def Block.Timed (p : Params) (b : Block) : Prop := b.phase ≠ .idle → b.cyc < phaseLen p b.phase

theorem Block.Inv.timed {p : Params} {b : Block} (h : b.Inv p) : b.Timed p := h.cyc_lt

theorem InSetup.timed {p : Params} {v : Byte} {j : Nat} {b : Block} (h : InSetup p v j b) : b.Timed p := fun _ => by
  rw [h.phase, h.cyc]
  exact h.lt

/-- At acceptance the whole frame is still to come (R103, R114). -/
theorem InSetup.remaining {p : Params} {v : Byte} {b : Block} (h : InSetup p v 0 b) :
    remaining p b = p.setupCycles + 10 * p.bitCycles + p.teardownCycles := by
  simp [Machine.remaining, h.phase, h.cyc]

theorem remaining_of_idle {p : Params} {b : Block} (hi : b.phase = .idle) : remaining p b = 0 := by
  simp [remaining, hi]

/-- The engine is idle exactly when no cycle remains. -/
theorem Block.Timed.remaining_eq_zero_iff {p : Params} {b : Block} (h : b.Timed p) :
    remaining p b = 0 ↔ b.phase = .idle := by
  refine ⟨fun hz => ?_, remaining_of_idle⟩
  by_contra hb
  have hcyc := h hb
  cases hp : b.phase <;> simp only [remaining, phaseLen, hp] at hz hcyc
  case idle => exact hb hp
  all_goals omega

/-- A live cycle of a busy engine keeps the counter inside its phase, and one cycle less remains. -/
theorem Block.Timed.advance {p : Params} (hp : p.Valid) {b : Block} (h : b.Timed p) (hb : b.phase ≠ .idle)
    (draw : Bool) :
    (Machine.advance p draw b).Timed p ∧ remaining p (Machine.advance p draw b) + 1 = remaining p b := by
  obtain ⟨⟨hB, -, hT⟩, -⟩ := hp
  have hcyc := h hb
  have hcase := advance_case (p := p) (draw := draw) hb
  generalize Machine.advance p draw b = d at hcase ⊢
  cases hcase with
  | within hc =>
    refine ⟨fun _ => by show b.cyc + 1 < phaseLen p b.phase; omega, ?_⟩
    cases hph : b.phase <;> simp only [remaining, phaseLen, hph] at hcyc hc ⊢ <;> omega
  | setup hph hc =>
    rw [hph] at hcyc
    refine ⟨fun _ => hB, ?_⟩
    simp only [remaining, phaseLen, hph, startEdge_eq] at hcyc ⊢
    omega
  | start hph hc =>
    rw [hph] at hcyc
    refine ⟨fun _ => hB, ?_⟩
    simp only [remaining, phaseLen, hph, firstDataBit_eq, Fin.val_zero] at hcyc ⊢
    omega
  | data hph hc hi =>
    rw [hph] at hcyc
    obtain ⟨k, hk⟩ : ∃ k, 8 - b.bitIdx.val = k + 1 := ⟨7 - b.bitIdx.val, by omega⟩
    have hk' : 8 - (b.bitIdx + 1).val = k := by rw [bitIdx_succ_val hi]; omega
    refine ⟨fun _ => by rw [nextDataBit_eq]; simpa [phaseLen, hph] using Nat.succ_le_iff.mp hB, ?_⟩
    simp only [remaining, phaseLen, hph, nextDataBit_eq, hk, hk', Nat.succ_mul] at hcyc ⊢
    omega
  | last hph hc hi =>
    rw [hph] at hcyc
    refine ⟨fun _ => hB, ?_⟩
    simp only [remaining, phaseLen, hph, hi, stopEdge_eq] at hcyc ⊢
    simp
    omega
  | stop hph hc =>
    rw [hph] at hcyc
    refine ⟨fun _ => hT, ?_⟩
    simp only [remaining, phaseLen, hph, endStop_eq] at hcyc ⊢
    omega
  | teardown hph hc =>
    rw [hph] at hcyc
    refine ⟨fun hi => absurd rfl hi, ?_⟩
    simp only [remaining, phaseLen, hph, endTeardown_eq] at hcyc ⊢
    omega

/-! ### The busy duration -/

/-- As long as the cycles that are not stalled do not exceed those that remained, each of them is one of those: what
remained is what remains and they. -/
theorem Block.Timed.run {c : Configuration} {s : State} {n : Nat} (h : s.block.Timed c.params) (hr : NoReset n s)
    (hn : n ≤ remaining c.params s.block + stallsIn c n s) :
    ((nextAt c)^[n] s).block.Timed c.params ∧
      remaining c.params ((nextAt c)^[n] s).block + n = remaining c.params s.block + stallsIn c n s := by
  induction n generalizing s with
  | zero => exact ⟨h, rfl⟩
  | succ n ih =>
    obtain ⟨hnow, hrest⟩ := (noReset_next (c := c)).mp hr
    rw [stallsIn_succ] at hn ⊢
    rw [Function.iterate_succ_apply]
    by_cases hs : s.stalled = true
    · have hhold : (nextAt c s).block = s.block := by rw [nextAt_eq (.stall hnow hs), State.hold_block]
      rw [if_pos hs] at hn ⊢
      obtain ⟨htimed, hleft⟩ := ih (hhold ▸ h) hrest (by rw [hhold]; omega)
      rw [hhold] at hleft
      exact ⟨htimed, by omega⟩
    · have hl : s.Live := ⟨hnow, by simpa using hs⟩
      rw [if_neg hs] at hn ⊢
      by_cases hb : s.block.phase = .idle
      · have := stallsIn_le c n (nextAt c s)
        rw [remaining_of_idle hb] at hn
        omega
      · obtain ⟨hadv, hone⟩ := h.advance c.valid hb s.now.draw
        have hblock : (nextAt c s).block = Machine.advance c.params s.now.draw s.block := by
          rw [nextAt_of_busy hl hb, State.mapBlock_block, State.hold_block]
        rw [← hblock] at hadv hone
        obtain ⟨htimed, hleft⟩ := ih hadv hrest (by omega)
        exact ⟨htimed, by omega⟩

/-- Settles O53: from the acceptance S + 10·B + T cycles remain, and each cycle that is not stalled is one of them. -/
theorem busyDuration : Obligations.BusyDuration := by
  intro c s t v n ha hq hr ht
  obtain ⟨⟨-, hlive⟩, -⟩ := s.accepting_iff.mp ha
  have hsend := InSetup.of_accepted_send (c := c) ha hq
  obtain ⟨-, hrest⟩ := (noReset_next (c := c)).mp hr
  obtain rfl := runAt_eq_next_iff.mp ht
  have hrun := hsend.timed.run hrest
  rw [hsend.remaining] at hrun
  rw [Function.iterate_succ_apply, stallsIn_succ, hlive, if_neg Bool.false_ne_true, Nat.zero_add]
  constructor
  case left =>
    intro hn
    obtain ⟨htimed, hleft⟩ := hrun hn.le
    rw [Block.busy_iff, ne_eq, ← htimed.remaining_eq_zero_iff]
    omega
  case right =>
    intro hn
    obtain ⟨htimed, hleft⟩ := hrun hn.le
    rw [Block.busy_eq_false_iff, ← htimed.remaining_eq_zero_iff]
    omega

/-! ### The end of a frame under fair stalls -/

/-- Fairness is a property of what is still to come. -/
theorem FairStalls.after {c : Configuration} {s : State} (h : FairStalls c s) (k : Nat) :
    FairStalls c ((nextAt c)^[k] s) := by
  intro n
  obtain ⟨m, t, ht, hs⟩ := h (k + n)
  rw [Nat.add_assoc, runAt_add] at ht
  exact ⟨m, t, ht, hs⟩

/-- A cycle of a busy engine that is not held by a stall brings it nearer to IDLE: it is live, or a reset. -/
theorem Block.Timed.next_of_not_held {c : Configuration} {s : State} (h : s.block.Timed c.params)
    (hb : s.block.phase ≠ .idle) (hs : s.now.rst = true ∨ s.stalled = false) :
    (nextAt c s).block.Timed c.params ∧
      remaining c.params (nextAt c s).block < remaining c.params s.block := by
  rw [nextAt_block_of_busy hb]
  split
  next => exact ⟨fun hi => absurd rfl hi, Nat.pos_of_ne_zero fun hz => hb (h.remaining_eq_zero_iff.mp hz)⟩
  next hr =>
    have hlive : ¬ s.stalled = true := by simpa [hr] using hs
    obtain ⟨hadv, hone⟩ := h.advance c.valid hb s.now.draw
    rw [if_neg hlive]
    exact ⟨hadv, by omega⟩

/-- If some later cycle is not stalled, a busy engine is nearer to IDLE after some cycles: up to the first cycle that is
not held by a stall nothing changes. -/
theorem Block.Timed.eventually_nearer {c : Configuration} {s : State} {m : Nat} (h : s.block.Timed c.params)
    (hb : s.block.phase ≠ .idle) (hs : ((nextAt c)^[m] s).stalled = false) :
    ∃ n, ((nextAt c)^[n] s).block.Timed c.params ∧
      remaining c.params ((nextAt c)^[n] s).block < remaining c.params s.block := by
  induction m generalizing s with
  | zero => exact ⟨1, h.next_of_not_held hb (.inr hs)⟩
  | succ m ih =>
    by_cases hgo : s.now.rst = true ∨ s.stalled = false
    · exact ⟨1, h.next_of_not_held hb hgo⟩
    · obtain ⟨hr, hstalled⟩ : s.now.rst = false ∧ s.stalled = true := by simpa using hgo
      have hhold : (nextAt c s).block = s.block := by rw [nextAt_eq (.stall hr hstalled), State.hold_block]
      rw [← hhold] at h hb ⊢
      obtain ⟨n, hn⟩ := ih h hb hs
      exact ⟨n + 1, hn⟩

/-- From any number of remaining cycles, fair stalls lead to IDLE. -/
theorem FairStalls.eventually_idle {c : Configuration} {s : State} (h : FairStalls c s)
    (ht : s.block.Timed c.params) : ∃ n, ((nextAt c)^[n] s).block.phase = .idle := by
  induction hk : remaining c.params s.block using Nat.strong_induction_on generalizing s with
  | _ k ih =>
    by_cases hb : s.block.phase = .idle
    · exact ⟨0, hb⟩
    · obtain ⟨m, u, hu, hs⟩ := h 0
      rw [Nat.zero_add] at hu
      obtain rfl := runAt_eq_next_iff.mp hu
      obtain ⟨n, hnt, hless⟩ := ht.eventually_nearer hb hs
      obtain ⟨l, hl⟩ := ih _ (hk ▸ hless) (h.after n) hnt rfl
      exact ⟨l + n, by rwa [Function.iterate_add_apply]⟩

/-- Settles O55, by induction on the cycles that remain. -/
theorem fairFrameEnds : Obligations.FairFrameEnds := by
  intro c s hinv hfair
  obtain ⟨n, hn⟩ := hfair.eventually_idle hinv.timed
  exact ⟨n, _, runAt_eq c n s, hn⟩

end Sys2Proof.Machine

/-! Proofs about words, lines of assembly, parameters and pins: the decoder against the encoder and the opcode table
(R71–R75), the assembler's operands (R79), which parameters have a machine (R10), and one pin's bit (R13, R36). -/

namespace Sys2Proof

/-! ### The decoder, the encoder and the opcode table -/

/-- Settles O1, word by word. -/
theorem decodeVectors : Obligations.DecodeVectors := by
  unfold Obligations.DecodeVectors
  decide

theorem decode_encode (i : Instr) : decode (encode i) = .instr i := by
  cases i with
  | init => exact decode_init_word
  | send v => exact Machine.decode_encode_send v

theorem encode_of_decode {w : Word} {i : Instr} (h : decode w = .instr i) : encode i = w :=
  BitVec.eq_of_toNat_eq (encode_toNat_of_decode h)

/-- Settles O3, by the two directions. -/
theorem decodeEncodeRoundTrip : Obligations.DecodeEncodeRoundTrip :=
  ⟨fun i _ => decode_encode i, fun _ _ => encode_of_decode⟩

/-- The row of a word that decodes is its command's (R71). -/
theorem rowOf_of_decode {w : Word} {i : Instr} (h : decode w = .instr i) : rowOf w = some (Laws.TableRow.row i) := by
  obtain rfl := encode_of_decode h
  cases i with
  | init => exact Laws.TableRow.init.2.2
  | send v => exact (Laws.TableRow.send v).2.2

/-- SEND's mask keeps the opcode byte of a word. -/
theorem opcode_and_sendMask (w : Word) : opcode (w &&& 0xFF00#16) = opcode w := by
  rw [opcode, BitVec.extractLsb'_and]
  exact BitVec.and_allOnes

/-- No row is an illegal word's: a word with a row meets its mask and match, which fix the opcode, and for INIT the
whole word. -/
theorem rowOf_of_illegal {w : Word} {why : Illegal} (h : decode w = .illegal why) : rowOf w = none := by
  obtain ⟨hinit, hsend⟩ := (decode_illegal_iff w).mp ⟨why, h⟩
  have hi : w &&& 0xFFFF#16 ≠ 0x0100#16 := by
    intro e
    rw [show (0xFFFF#16) = BitVec.allOnes 16 from rfl, BitVec.and_allOnes] at e
    exact hinit (by rw [e]; decide)
  have hs : w &&& 0xFF00#16 ≠ 0x0200#16 := by
    intro e
    exact hsend (by rw [← opcode_and_sendMask, e]; decide)
  simp [rowOf, opcodeTable, hi, hs]

/-- Settles O4, by what the word decodes to. -/
theorem decodeAgreesWithOpcodeTable : Obligations.DecodeAgreesWithOpcodeTable := by
  intro w
  cases h : decode w with
  | instr i => rw [rowOf_of_decode h]; cases i <;> rfl
  | illegal why => rw [rowOf_of_illegal h]; rfl

/-! ### The assembler -/

/-- R79: the word of SEND of a number that fits a byte. -/
theorem encode_send_ofNat {n : Nat} (h : n ≤ 255) :
    encode (.send (BitVec.ofNat 8 n)) = 0x0200#16 ||| BitVec.ofNat 16 n := by
  have hw : (BitVec.ofNat 8 n).setWidth 16 = BitVec.ofNat 16 n := by
    refine BitVec.eq_of_toNat_eq ?_
    simp
    omega
  rw [encode, hw]

/-- SEND of an immediate assembles when the immediate is well-formed (R79). -/
theorem assemble_send (imm : Imm) :
    assemble (.send imm) =
      if imm.wf then some (.cmd (encode (.send (BitVec.ofNat 8 imm.value)))) else none := rfl

/-- A number assembles when it fits a byte, however it is written. -/
theorem assemble_send_number {imm : Imm} {n : Nat} (hv : imm.value = n) (hwf : imm.wf = decide (n ≤ 255)) :
    assemble (.send imm) = if n ≤ 255 then some (.cmd (0x0200#16 ||| BitVec.ofNat 16 n)) else none := by
  rw [assemble_send, hwf, hv]
  by_cases h : n ≤ 255
  · simp [h, encode_send_ofNat h]
  · simp [h]

/-- Settles O5, by the operand's value, which a byte holds. -/
theorem assemblerEncodes : Obligations.AssemblerEncodes := by
  refine ⟨rfl, fun n => assemble_send_number rfl rfl, fun n => assemble_send_number rfl rfl, fun c hc => ?_⟩
  rw [assemble_send, if_pos (by simpa [Imm.wf] using hc), Imm.value, encode_send_ofNat (by omega)]

/-! ### Parameters -/

theorem Configuration.build?_eq_some_iff {p : Params} {c : Configuration} :
    Configuration.build? p = some c ↔ c.params = p := by
  unfold Configuration.build?
  constructor
  · intro h
    split at h
    · cases h; rfl
    · cases h
  · rintro rfl
    exact dif_pos c.valid

theorem machine?_eq_some_iff {p : Params} {m : Host.Core} :
    Machine.machine? p = some m ↔ ∃ c, Configuration.build? p = some c ∧ Machine.coreAt c = m := by
  simp [Machine.machine?]

/-- R10: a configuration of the parameters is built, and with it its machine, exactly when they are valid. -/
theorem exists_machine?_iff (p : Params) :
    (∃ c, Configuration.build? p = some c ∧ c.params = p ∧ Machine.machine? p = some (Machine.coreAt c)) ↔ p.Valid := by
  constructor
  · rintro ⟨c, -, rfl, -⟩
    exact c.valid
  · intro h
    have hc : Configuration.build? p = some ⟨p, h⟩ := Configuration.build?_eq_some_iff.mpr rfl
    exact ⟨_, hc, rfl, machine?_eq_some_iff.mpr ⟨_, hc, rfl⟩⟩

/-- Settles O7: a machine is built exactly for valid parameters, and validity is the listed conditions; that the port has
a pin follows from the TX pin being on it. -/
theorem buildsExactlyValidConfigurations : Obligations.BuildsExactlyValidConfigurations := by
  intro p
  refine ⟨fun m hm => ?machine, (exists_machine?_iff p).trans ⟨?listed, ?valid⟩⟩
  case machine =>
    obtain ⟨c, hc, rfl⟩ := machine?_eq_some_iff.mp hm
    exact ⟨c, hc, rfl⟩
  case listed =>
    rintro ⟨⟨hB, hS, hT⟩, ⟨htx, hrx⟩, hsingle, hdual, -, hclk, hbaud⟩
    refine ⟨hB, hS, hT, htx, hrx, ?_, hclk, hbaud⟩
    cases hw : p.wiring with
    | single => exact hsingle hw
    | dual => exact hdual hw
  case valid =>
    rintro ⟨hB, hS, hT, htx, hrx, hpins, hclk, hbaud⟩
    exact ⟨⟨hB, hS, hT⟩, ⟨htx, hrx⟩, fun hw => by simpa only [hw] using hpins, fun hw => by simpa only [hw] using hpins,
      Nat.one_le_of_lt htx, hclk, hbaud⟩

end Sys2Proof

namespace Sys2Proof.Machine

/-! ### Pins -/

/-- Settles O8, by what is read after a write. -/
theorem pinWriteSetsOneBit : Obligations.PinWriteSetsOneBit := fun r pin _ b =>
  ⟨r.get_put_same pin b, r.get_put_other b, PinSet.put_of_get (r.get_put_same pin b)⟩

theorem Block.drive_of_input {b : Block} {pin : Nat} (h : b.dir.get pin = false) : b.drive pin = .z := by
  simp [Block.drive, h]

/-- Where the block does not drive a pin, the line is at the environment's level (R36). -/
theorem State.line_of_not_driven {s : State} {pin : Nat} (h : s.block.drive pin = .z) :
    s.line pin = levelOf (s.now.ext.get pin) := by simp [State.line, h]

/-- Settles O9, by the direction of the pin. -/
theorem driveAndLineOfAPin : Obligations.DriveAndLineOfAPin := by
  intro s pin
  constructor
  · intro hout
    have hdrive := drive_of_get hout rfl
    exact ⟨hdrive, State.line_of_drive hdrive⟩
  · intro hin
    have hz := Block.drive_of_input hin
    exact ⟨hz, State.line_of_not_driven hz⟩

/-! ### What the invariant says in each phase -/

/-- R22: in a busy phase the TX pin is driven at the phase's level. -/
theorem Block.Inv.drive_of_busy {p : Params} {b : Block} (h : b.Inv p) (hb : b.phase ≠ .idle) :
    b.drive p.txPin = .level (levelOf (phaseBit b)) := by
  obtain ⟨hdir, hout⟩ := h.tx_driven hb
  exact drive_of_get hdir hout

/-- R103: no phase is longer than the longest of B, S and T. -/
theorem phaseLen_le_max (p : Params) (phase : Phase) :
    phaseLen p phase ≤ max p.bitCycles (max p.setupCycles p.teardownCycles) := by
  cases phase <;> simp [phaseLen]

/-- R23: the cycle counter is below the longest phase; in IDLE it is 0. -/
theorem Block.Inv.cyc_lt_max {p : Params} (hp : p.Valid) {b : Block} (h : b.Inv p) :
    b.cyc < max p.bitCycles (max p.setupCycles p.teardownCycles) := by
  by_cases hb : b.phase = .idle
  · obtain ⟨hcyc, -⟩ := h.idle_clear hb
    obtain ⟨⟨hB, -⟩, -⟩ := hp
    exact hcyc ▸ lt_max_of_lt_left hB
  · exact (h.cyc_lt hb).trans_le (phaseLen_le_max p b.phase)

/-- Settles O39, by the drive the invariant gives in the phase. -/
theorem txPinFollowsThePhaseTable : Obligations.TxPinFollowsThePhaseTable := by
  intro p b hp hinv
  have hdrive : ∀ phase, phase ≠ .idle → b.phase = phase → b.drive p.txPin = .level (levelOf (phaseBit b)) :=
    fun phase hb hphase => hinv.drive_of_busy (hphase ▸ hb)
  refine ⟨hinv.cyc_lt_max hp, fun h => ?_, fun h => ?_, fun h => ?_, fun h => ?_, fun h => ?_⟩
  all_goals
    rw [hdrive _ Phase.noConfusion h, phaseBit, h]
    rfl

/-- Settles O40: the invariant keeps the two other enables set. -/
theorem receiveInterruptWaitsForGie : Obligations.ReceiveInterruptWaitsForGie := by
  intro p b hinv hd hirq
  obtain ⟨hmask, hpcie⟩ := hinv.rx_hook hd hirq
  simp [Block.rxInterruptEnabled, hmask, hpcie]

/-- In the critical section no stall input has an effect (R146). -/
theorem Block.Inv.stallEff_of_critical {p : Params} {b : Block} (h : b.Inv p)
    (hb : b.phase = .start ∨ b.phase = .data ∨ b.phase = .stop) (stall : Bool) : b.stallEff stall = false := by
  simp [Block.stallEff, h.cs_gie (h.cs_iff.mpr hb)]

/-- Settles O41: a stall has no effect in the critical section, which is all phases but the three. -/
theorem noEffectiveStallInAFrame : Obligations.NoEffectiveStallInAFrame := by
  intro c s hinv
  have hnone := fun stall hb => hinv.stallEff_of_critical hb stall
  refine ⟨fun hs => ?_, hnone⟩
  have hout : ¬(s.block.phase = .start ∨ s.block.phase = .data ∨ s.block.phase = .stop) := fun hb => by
    simp [State.stalled, hnone _ hb] at hs
  cases hp : s.block.phase <;> simp [hp] at hout ⊢

end Sys2Proof.Machine

/-! Proofs about the acceptance of SEND (R101, R118, R142), faults and the end of a run (R141, R186), and the step as the
dispatcher of requests (R37, R80, R100, R113). -/

namespace Sys2Proof.Machine

/-! ### Recorded faults stay recorded -/

/-- Neither command removes a fault (R141). -/
theorem mem_commandBlock_faults {p : Params} {b : Block} {f : ModelFault} (i : Instr) (h : f ∈ b.faults) :
    f ∈ (commandBlock p i b).faults := by
  cases i with
  | init => exact (mem_initBlock_faults p b f).mpr (.inl h)
  | send v =>
    rw [commandBlock, sendBlock_eq]
    show f ∈ if b.initDone then b.faults else insertFault _ b.faults
    split
    · exact h
    · exact (mem_insertFault _ _ _).mpr (.inr h)

/-- No step removes a fault, a reset included (R29, R141). -/
theorem StepCase.mem_faults {c : Configuration} {s t : State} {f : ModelFault} (h : StepCase c s t)
    (hf : f ∈ s.block.faults) : f ∈ t.block.faults := by
  cases h with
  | reset | stall | none | setGie => exact hf
  | busy _ hb =>
    obtain ⟨-, -, -, hfaults⟩ := (advance_case (p := c.params) (draw := s.now.draw) hb).frame
    exact hfaults ▸ hf
  | command _ _ _ i => exact mem_commandBlock_faults i hf
  | illegal => exact (Block.mem_raise_faults _ _ _).mpr (.inl hf)

theorem mem_faults_iterate_nextAt {c : Configuration} {s : State} {f : ModelFault} (n : Nat)
    (hf : f ∈ s.block.faults) : f ∈ ((nextAt c)^[n] s).block.faults := by
  induction n with
  | zero => exact hf
  | succ n ih =>
    rw [Function.iterate_succ_apply']
    exact (nextAt_case c _).mem_faults ih

/-- Settles O42, from the cases of a step. -/
theorem faultsAreSticky : Obligations.FaultsAreSticky := by
  intro s t f hs hf
  exact (stepCase_of_step hs).mem_faults hf

/-- Settles O43: the fault is still recorded, and a final state has none. -/
theorem faultedRunNeverFinal : Obligations.FaultedRunNeverFinal := by
  rintro c s t n f hf ht ⟨-, hnone, -, -⟩
  obtain rfl := runAt_eq_next_iff.mp ht
  have hrec := mem_faults_iterate_nextAt (c := c) n hf
  simp [hnone] at hrec

/-! ### The acceptance of SEND -/

/-- The meaning of SEND is R101's change of the block, in every state. -/
theorem exec_send (v : Byte) (s : State) : exec (.send v) s = .next (s.mapBlock (sendBlock Config.params v)) := rfl

/-- R101, R142: SEND records a fault exactly when `INIT_DONE` is 0. -/
theorem mem_sendBlock_faults (p : Params) (v : Byte) (b : Block) (f : ModelFault) :
    f ∈ (sendBlock p v b).faults ↔ f ∈ b.faults ∨ (b.initDone = false ∧ f = .notInitialized v) := by
  rw [sendBlock_eq]
  cases b.initDone with
  | false => simp [or_comm]
  | true => simp

theorem sendBlock_dir (p : Params) (v : Byte) (b : Block) : (sendBlock p v b).dir = b.dir.put p.txPin true := by
  rw [sendBlock_eq]

theorem sendBlock_out (p : Params) (v : Byte) (b : Block) : (sendBlock p v b).out = b.out.put p.txPin true := by
  rw [sendBlock_eq]

theorem sendBlock_dir_get (p : Params) (v : Byte) (b : Block) (pin : Nat) :
    (sendBlock p v b).dir.get pin = if pin = p.txPin then true else b.dir.get pin := by
  rw [sendBlock_dir, PinSet.get_put]

theorem sendBlock_out_get (p : Params) (v : Byte) (b : Block) (pin : Nat) :
    (sendBlock p v b).out.get pin = if pin = p.txPin then true else b.out.get pin := by
  rw [sendBlock_out, PinSet.get_put]

/-- What SEND leaves alone (R101). -/
theorem sendBlock_frame (p : Params) (v : Byte) (b : Block) :
    (sendBlock p v b).gie = b.gie ∧ (sendBlock p v b).cs = b.cs ∧ (sendBlock p v b).initDone = b.initDone ∧
    (sendBlock p v b).pue = b.pue ∧ (sendBlock p v b).pcmsk = b.pcmsk ∧ (sendBlock p v b).pcie = b.pcie := by
  rw [sendBlock_eq]
  exact ⟨rfl, rfl, rfl, rfl, rfl, rfl⟩

/-- What SEND loads: the byte, the copy of `GIE`, and the first cycle of SETUP (R101). -/
theorem sendBlock_loads (p : Params) (v : Byte) (b : Block) :
    (sendBlock p v b).txByte = v ∧ (sendBlock p v b).savedGie = b.gie ∧ (sendBlock p v b).phase = .setup ∧
    (sendBlock p v b).cyc = 0 ∧ (sendBlock p v b).bitIdx = 0 := by
  rw [sendBlock_eq]
  exact ⟨rfl, rfl, rfl, rfl, rfl⟩

/-- After SEND the TX pin is driven high (R101). -/
theorem sendBlock_drive (p : Params) (v : Byte) (b : Block) : (sendBlock p v b).drive p.txPin = .level .high :=
  drive_of_get (l := true) (by rw [sendBlock_dir, PinSet.get_put_same]) (by rw [sendBlock_out, PinSet.get_put_same])

/-- Settles O14, from what SEND does to each field of the block. -/
theorem sendCompletes : Obligations.SendCompletes := by
  intro v s
  obtain ⟨hbyte, hsaved, hphase, hcyc, hbit⟩ := sendBlock_loads Config.params v s.block
  obtain ⟨hgie, hcs, hdone, hpue, hpcmsk, hpcie⟩ := sendBlock_frame Config.params v s.block
  exact ⟨_, exec_send v s, hbyte, hsaved, hphase, hcyc, hbit, sendBlock_dir_get _ _ _,
    sendBlock_out_get _ _ _, sendBlock_drive _ _ _, mem_sendBlock_faults _ _ _, hgie, hcs, hdone,
    hpue, hpcmsk, hpcie, rfl, rfl, rfl⟩

/-- R142: before INIT, SEND does what it does after INIT, but for `INIT_DONE`, which it does not write, and `FAULTS`. -/
theorem sendBlock_of_not_initDone {p : Params} {v : Byte} {b : Block} (hd : b.initDone = false) :
    sendBlock p v b =
      { sendBlock p v { b with initDone := true } with
        initDone := false, faults := (sendBlock p v b).faults } := by
  simp only [sendBlock_eq, hd]

/-- Settles O15: the two SENDs agree outside the two fields, and a recorded fault is never lost. -/
theorem sendBeforeInitStillRuns : Obligations.SendBeforeInitStillRuns := by
  intro v s hd
  have hrec : ModelFault.notInitialized v ∈ (sendBlock Config.params v s.block).faults :=
    (mem_sendBlock_faults _ _ _ _).mpr (.inr ⟨hd, rfl⟩)
  refine ⟨_, _, exec_send v s, exec_send v _, hrec, ?_, fun n w hw => faultedRunNeverFinal _ _ w n _ hrec hw⟩
  exact congrArg (fun b => { s with block := b }) (sendBlock_of_not_initDone hd)

/-- Settles O16: by the invariant both bits SEND writes hold 1 already. -/
theorem dualSendKeepsThePins : Obligations.DualSendKeepsThePins := by
  intro c s v hdual hinv hd hi
  obtain ⟨hdir, hout⟩ := hinv.tx_high hd hdual
  have hkeepDir : (sendBlock c.params v s.block).dir = s.block.dir := by rw [sendBlock_dir, PinSet.put_of_get hdir]
  have hkeepOut : (sendBlock c.params v s.block).out = s.block.out := by
    rw [sendBlock_out, PinSet.put_of_get (hout hi)]
  exact ⟨_, rfl, hkeepDir, hkeepOut, drive_of_get hdir (hout hi), sendBlock_drive _ _ _⟩

/-! ### This machine among the machines -/

theorem core_eq_coreAt : core = coreAt Config.configuration := by
  have hstep : step = stepAt Config.configuration := funext step_eq_stepAt
  unfold core coreAt
  rw [hstep]
  rfl

/-- A run of this machine is a run of the machine of its configuration. -/
theorem core_run_eq_runAt (n : Nat) (s : State) : core.run n s = runAt Config.configuration n s := by
  induction n generalizing s with
  | zero => rfl
  | succ n ih =>
    have hnext : core.step s = .next (nextAt Config.configuration s) := (step_eq_stepAt s).trans (stepAt_eq _ s)
    rw [run_succ_of_next n hnext, runAt_succ]
    exact ih _

/-- Settles O17: this machine is, by its definition, the one built for its parameters. -/
theorem stepIsTheInstance : Obligations.StepIsTheInstance :=
  ⟨step_eq_stepAt, core_run_eq_runAt, Config.params_valid,
    machine?_eq_some_iff.mpr ⟨_, Configuration.build?_eq_some_iff.mpr rfl, core_eq_coreAt.symm⟩⟩

/-! ### Requests -/

/-- The step of a cycle that accepts a command is the command's meaning on the served state (R37, R100). -/
theorem step_of_accepted {s : State} {w : Word} {i : Instr} (ha : s.accepting = true) (hq : s.request = .cmd w)
    (hd : decode w = .instr i) : step s = exec i s.serve := by
  rw [step_eq_stepAt, exec_eq_execAt]
  exact (StepCase.of_accepted ha hq hd).next

/-- Settles O18, by the step of a cycle that accepts a command. -/
theorem stepRunsTheDecodedCommand : Obligations.StepRunsTheDecodedCommand := by
  intro s w i ha hq hd
  refine ⟨step_of_accepted ha hq hd, rfl, fun rest hprog => ?_⟩
  rw [State.serve_program, hprog]
  exact serveProgram_request (fun n => HostItem.noConfusion) rest 0

theorem decode_of_decodeTableWord {w : Nat} {i : Instr} (h : decodeTableWord 16 w = some i) :
    decode (tableWord 16 w) = .instr i := by
  cases hd : decode (tableWord 16 w) <;> simp_all [decodeTableWord]

/-- A placed word is presented in a live cycle of IDLE (log 9). -/
theorem State.accepting_withFetchWord (s : State) (nbits w : Nat) : (s.withFetchWord nbits w).accepting = true :=
  State.accepting_of_idle rfl rfl rfl

/-- Settles O19: the placed word is accepted and decodes to the command. -/
theorem placedWordRunsNext : Obligations.PlacedWordRunsNext := by
  intro s w i h
  have ha := s.accepting_withFetchWord 16 w
  exact ⟨ha, step_of_accepted ha rfl (decode_of_decodeTableWord h)⟩

/-- Settles O20: every step falls under a case of R100, and each case moves the clock and the inputs on. -/
theorem everyStepGoesOn : Obligations.EveryStepGoesOn := by
  intro s
  have hcase := nextAt_case Config.configuration s
  exact ⟨_, (step_eq_stepAt s).trans hcase.next, hcase.clock⟩

/-- Settles O22, by the program after a cycle that accepts and after one that does not. -/
theorem requestServedExactlyWhenAccepted : Obligations.RequestServedExactlyWhenAccepted := by
  intro s hq
  have hcase := nextAt_case Config.configuration s
  refine ⟨_, (step_eq_stepAt s).trans hcase.next, fun ha => hcase.program_of_accepting ha hq, fun ha k rest hprog => ?_,
    fun ha => hcase.request_of_not_accepting ha hq⟩
  rw [hcase.program_of_accepting ha hq]
  rcases hprog with ⟨w, hprog⟩ | ⟨g, hprog⟩
  all_goals
    rw [hprog]
    exact serveProgram_request (fun n => HostItem.noConfusion) rest k

/-- Settles O27, by the case of the step the cycle falls under. -/
theorem setGieWritesTheEnable : Obligations.SetGieWritesTheEnable := by
  intro s g hq
  have hreq : s.request ≠ .none := by simp [hq]
  refine ⟨fun ha => ?accepted, fun hr hs => ?stalled, fun _ hb => ?busy⟩
  case accepted =>
    obtain ⟨hl, hi⟩ := s.accepting_iff.mp ha
    exact (step_eq_stepAt s).trans (StepCase.setGie hl hi g hq).next
  case stalled =>
    exact ⟨(step_eq_stepAt s).trans (StepCase.stall hr hs).next, (State.request_hold hreq).trans hq⟩
  case busy =>
    have hcase := nextAt_case Config.configuration s
    exact ⟨_, (step_eq_stepAt s).trans hcase.next,
      (hcase.request_of_not_accepting (State.accepting_of_busy hb) hreq).trans hq⟩

/-! ### WAIT -/

/-- A cycle of a WAIT presents nothing and takes one from it, whatever the block does in it (R80; log 6, log 7). -/
theorem next_of_wait {c : Configuration} {s : State} {n : Nat} {rest : List HostItem}
    (h : s.program = .wait (n + 1) :: rest) :
    s.request = .none ∧ (nextAt c s).program = if n = 0 then rest else .wait n :: rest := by
  have hq : s.request = .none := by rw [State.request, h]; rfl
  exact ⟨hq, by rw [(nextAt_case c s).program_of_none hq, h, keepProgram_wait]⟩

/-- After j cycles of a longer WAIT, n - j are left of it. -/
theorem program_of_wait {c : Configuration} {s : State} {n j : Nat} {rest : List HostItem}
    (h : s.program = .wait n :: rest) (hj : j < n) : ((nextAt c)^[j] s).program = .wait (n - j) :: rest := by
  induction j with
  | zero => exact h
  | succ j ih =>
    obtain ⟨m, hm⟩ : ∃ m, n - j = m + 1 := ⟨n - j - 1, by omega⟩
    have hj' := ih (by omega)
    rw [hm] at hj'
    rw [Function.iterate_succ_apply', (next_of_wait hj').2, if_neg (by omega), show n - (j + 1) = m by omega]

/-- After its n cycles the WAIT is gone. -/
theorem program_after_wait {c : Configuration} {s : State} {n : Nat} {rest : List HostItem}
    (h : s.program = .wait n :: rest) (hn : 0 < n) : ((nextAt c)^[n] s).program = rest := by
  obtain ⟨m, rfl⟩ := Nat.exists_eq_succ_of_ne_zero hn.ne'
  have hlast := program_of_wait (c := c) h m.lt_succ_self
  rw [Nat.succ_eq_add_one, Nat.add_sub_cancel_left] at hlast
  rw [Function.iterate_succ_apply', (next_of_wait hlast).2, if_pos rfl]

/-- Settles O49, by what is left of the WAIT in each cycle; a WAIT 0 takes no cycle. -/
theorem waitPresentsNothingForItsCycles : Obligations.WaitPresentsNothingForItsCycles := by
  intro c s n rest h
  refine ⟨fun j hj => ⟨_, runAt_eq c j s, ?waiting⟩, _, runAt_eq c n s, ?next, program_after_wait h⟩
  case waiting =>
    obtain ⟨m, hm⟩ : ∃ m, n - j = m + 1 := ⟨n - j - 1, by omega⟩
    exact (next_of_wait (c := c) (hm ▸ program_of_wait h hj)).1
  case next =>
    rcases Nat.eq_zero_or_pos n with rfl | hn
    · rw [Function.iterate_zero_apply, State.request, h]
      rfl
    · rw [State.request, program_after_wait h hn]

end Sys2Proof.Machine

/-! Proofs of the rules about every step without a reset: which pins it writes and how (R32–R34, R40), which events change
the latches and `GIE` (R25–R28, R35), and the order of the phases (R120). -/

namespace Sys2Proof.Machine

/-! ### What every operation on the block keeps, every step without a reset keeps -/

/-- A reflexive relation of blocks that holds across each operation on the block holds across a step without a reset. -/
theorem StepCase.block_rel {R : Block → Block → Prop} {c : Configuration} {s t : State} (h : StepCase c s t)
    (hr : s.now.rst = false) (unchanged : ∀ b, R b b)
    (busy : ∀ b draw, b.phase ≠ .idle → R b (advance c.params draw b))
    (setGie : ∀ b g, R b (b.setGie g)) (command : ∀ b i, R b (commandBlock c.params i b))
    (illegal : ∀ b f, R b (b.raise f)) : R s.block t.block := by
  cases h with
  | reset hr' => exact absurd (hr'.symm.trans hr) Bool.noConfusion
  | stall => exact unchanged _
  | busy _ hb => exact busy _ _ hb
  | none => exact unchanged _
  | setGie => exact setGie _ _
  | command => exact command _ _
  | illegal => exact illegal _ _

/-! ### Pins -/

/-- R40: a pin's bits are kept, but for OUT of the TX pin, PCMSK of the RX pin, and DIR and PUE of both. -/
def Block.KeepsPin (p : Params) (pin : Nat) (b d : Block) : Prop :=
  (pin ≠ p.txPin → d.out.get pin = b.out.get pin) ∧
  (pin ≠ p.rxPin → d.pcmsk.get pin = b.pcmsk.get pin) ∧
  (pin ≠ p.txPin → pin ≠ p.rxPin → d.dir.get pin = b.dir.get pin ∧ d.pue.get pin = b.pue.get pin)

/-- A busy block writes OUT of the TX pin, and on its return to IDLE DIR and PUE of that pin (R121). -/
theorem AdvanceCase.keepsPin {p : Params} {draw : Bool} {b d : Block} (h : AdvanceCase p draw b d) (pin : Nat) :
    b.KeepsPin p pin d := by
  refine ⟨fun htx => ?out, fun _ => by rw [h.frame.1], fun htx _ => ?ports⟩
  case out =>
    cases h with
    | within | stop => rfl
    | teardown => rw [endTeardown_eq]
    | setup | start | data | last => exact PinSet.get_put_other _ _ htx
  case ports =>
    cases h with
    | within | setup | start | data | last | stop => exact ⟨rfl, rfl⟩
    | teardown =>
      rw [endTeardown_eq]
      simp only [get_ite_put_false, htx, and_false, if_false, and_self]

theorem commandBlock_keepsPin (p : Params) (pin : Nat) (b : Block) (i : Instr) :
    b.KeepsPin p pin (commandBlock p i b) := by
  cases i with
  | init =>
    refine ⟨fun htx => ?_, fun hrx => ?_, fun htx hrx => ⟨?_, ?_⟩⟩
    · simp [commandBlock, initBlock_out, htx]
    · simp [commandBlock, initBlock_pcmsk_get, hrx]
    · simp [commandBlock, initBlock_dir, htx, hrx]
    · simp [commandBlock, initBlock_pue_get, hrx]
  | send v =>
    obtain ⟨-, -, -, hpue, hpcmsk, -⟩ := sendBlock_frame p v b
    refine ⟨fun htx => ?_, fun _ => by rw [commandBlock, hpcmsk], fun htx _ => ⟨?_, by rw [commandBlock, hpue]⟩⟩
    · simp [commandBlock, sendBlock_out_get, htx]
    · simp [commandBlock, sendBlock_dir_get, htx]

/-- Settles O44: every operation on the block keeps the pin. -/
theorem otherPinsUntouched : Obligations.OtherPinsUntouched := by
  intro s t pin hr hs
  exact (stepCase_of_step hs).block_rel (R := Block.KeepsPin Config.params pin) hr
    (unchanged := fun _ => ⟨fun _ => rfl, fun _ => rfl, fun _ _ => ⟨rfl, rfl⟩⟩)
    (busy := fun _ _ hb => (advance_case hb).keepsPin pin)
    (setGie := fun _ _ => ⟨fun _ => rfl, fun _ => rfl, fun _ _ => ⟨rfl, rfl⟩⟩)
    (command := commandBlock_keepsPin _ _)
    (illegal := fun _ _ => ⟨fun _ => rfl, fun _ => rfl, fun _ _ => ⟨rfl, rfl⟩⟩)

/-- R32, R33, R34: pull-ups are only cleared, pin-change enables only set. -/
def Block.KeepsEnables (b d : Block) : Prop :=
  (∀ pin, d.pue.get pin = true → b.pue.get pin = true) ∧
  (∀ pin, b.pcmsk.get pin = true → d.pcmsk.get pin = true) ∧
  (b.pcie = true → d.pcie = true)

theorem Block.KeepsEnables.of_eq {b d : Block} (hpue : d.pue = b.pue) (hpcmsk : d.pcmsk = b.pcmsk)
    (hpcie : d.pcie = b.pcie) : b.KeepsEnables d := by
  unfold Block.KeepsEnables
  rw [hpue, hpcmsk, hpcie]
  exact ⟨fun _ => id, fun _ => id, id⟩

theorem AdvanceCase.keepsEnables {p : Params} {draw : Bool} {b d : Block} (h : AdvanceCase p draw b d) :
    b.KeepsEnables d := by
  obtain ⟨hpcmsk, hpcie, -⟩ := h.frame
  cases h with
  | within | setup | start | data | last | stop => exact .of_eq rfl rfl rfl
  | teardown =>
    refine ⟨fun pin hpin => ?_, fun pin => hpcmsk ▸ id, hpcie ▸ id⟩
    rw [endTeardown_eq, get_ite_put_false] at hpin
    split at hpin
    · exact absurd hpin Bool.false_ne_true
    · exact hpin

theorem commandBlock_keepsEnables (p : Params) (b : Block) (i : Instr) : b.KeepsEnables (commandBlock p i b) := by
  cases i with
  | init =>
    refine ⟨fun pin hpin => ?_, fun pin hpin => ?_, fun hpcie => ?_⟩
    · rw [commandBlock, initBlock_pue_get] at hpin
      split at hpin
      · exact absurd hpin Bool.false_ne_true
      · exact hpin
    · simp [commandBlock, initBlock_pcmsk_get, hpin]
    · simp [commandBlock, initBlock_pcie, hpcie]
  | send v =>
    obtain ⟨-, -, -, hpue, hpcmsk, hpcie⟩ := sendBlock_frame p v b
    exact .of_eq hpue hpcmsk hpcie

/-- Settles O45: no operation on the block sets a pull-up or clears an enable. -/
theorem pullUpsOnlyClearedMasksOnlySet : Obligations.PullUpsOnlyClearedMasksOnlySet := by
  intro s t hr hs
  exact (stepCase_of_step hs).block_rel (R := Block.KeepsEnables) hr
    (unchanged := fun _ => .of_eq rfl rfl rfl)
    (busy := fun _ _ hb => (advance_case hb).keepsEnables)
    (setGie := fun _ _ => .of_eq rfl rfl rfl)
    (command := commandBlock_keepsEnables _)
    (illegal := fun _ _ => .of_eq rfl rfl rfl)

/-! ### The critical section and `GIE` -/

/-- A busy block writes `CS` and `GIE` only at the start edge and at the end of the stop bit (R104, R109). -/
theorem AdvanceCase.critical {p : Params} {draw : Bool} {b d : Block} (h : AdvanceCase p draw b d) :
    (d.cs = b.cs ∧ d.gie = b.gie) ∨
    (b.phase = .setup ∧ d.phase = .start ∧ d.cs = true ∧ d.gie = false) ∨
    (b.phase = .stop ∧ d.phase = .teardown ∧ d.cs = false) := by
  cases h with
  | within | start | data | last => exact .inl ⟨rfl, rfl⟩
  | teardown => rw [endTeardown_eq]; exact .inl ⟨rfl, rfl⟩
  | setup hp => exact .inr (.inl ⟨hp, rfl, rfl, rfl⟩)
  | stop hp => exact .inr (.inr ⟨hp, rfl, rfl⟩)

/-- Neither command writes `CS` or `GIE` (R91, R93, R101). -/
theorem commandBlock_critical (p : Params) (b : Block) (i : Instr) :
    (commandBlock p i b).cs = b.cs ∧ (commandBlock p i b).gie = b.gie := by
  cases i with
  | init =>
    obtain ⟨-, -, -, -, hcs, -, hgie⟩ := initBlock_frame p b
    exact ⟨hcs, hgie⟩
  | send v =>
    obtain ⟨hgie, hcs, -⟩ := sendBlock_frame p v b
    exact ⟨hcs, hgie⟩

/-- Settles O46: of the cases of a step, these are the ones that write `GIE`. -/
theorem onlyTheseEventsChangeGie : Obligations.OnlyTheseEventsChangeGie := by
  intro s t hs hne
  cases stepCase_of_step hs with
  | reset hr => exact .inl hr
  | stall | none | illegal => exact absurd rfl hne
  | busy _ hb =>
    rcases (advance_case (p := Config.params) (draw := s.now.draw) hb).critical with
      ⟨-, hgie⟩ | ⟨hsetup, hstart, -, hgie⟩ | ⟨hstop, hteardown, -⟩
    · exact absurd hgie hne
    · exact .inr (.inr (.inl ⟨hsetup, hstart, hgie⟩))
    · exact .inr (.inr (.inr ⟨hstop, hteardown⟩))
  | setGie hl hi g hq => exact .inr (.inl ⟨s.accepting_iff.mpr ⟨hl, hi⟩, hq⟩)
  | command _ _ _ i => exact absurd (commandBlock_critical Config.params s.block i).2 hne

/-! ### The latches -/

/-- A busy block writes `TXBYTE` and `SAVED_GIE` only on its return to IDLE, where both are cleared (R111). -/
theorem AdvanceCase.latches {p : Params} {draw : Bool} {b d : Block} (h : AdvanceCase p draw b d) :
    (d.txByte = b.txByte ∧ d.savedGie = b.savedGie) ∨
    (b.phase = .teardown ∧ d.phase = .idle ∧ d.txByte = 0x00#8 ∧ d.savedGie = false) := by
  cases h with
  | within | setup | start | data | last | stop => exact .inl ⟨rfl, rfl⟩
  | teardown hp => exact .inr ⟨hp, rfl, rfl, rfl⟩

/-- Of the commands SEND alone loads the latches, and begins SETUP (R90, R101). -/
theorem commandBlock_latches (p : Params) (b : Block) (i : Instr) :
    ((commandBlock p i b).txByte = b.txByte ∧ (commandBlock p i b).savedGie = b.savedGie) ∨
    (commandBlock p i b).phase = .setup := by
  cases i with
  | init =>
    obtain ⟨-, -, -, hbyte, -, hsaved, -⟩ := initBlock_frame p b
    exact .inl ⟨hbyte, hsaved⟩
  | send v =>
    obtain ⟨-, -, hphase, -⟩ := sendBlock_loads p v b
    exact .inr hphase

/-- R25, R27: the events that change `TXBYTE` or `SAVED_GIE`. -/
theorem StepCase.latches {c : Configuration} {s t : State} (h : StepCase c s t) (hr : s.now.rst = false) :
    (t.block.txByte = s.block.txByte ∧ t.block.savedGie = s.block.savedGie) ∨
    (s.block.phase = .idle ∧ t.block.phase = .setup) ∨
    (s.block.phase = .teardown ∧ t.block.phase = .idle ∧ t.block.txByte = 0x00#8 ∧ t.block.savedGie = false) := by
  cases h with
  | reset hr' => exact absurd (hr'.symm.trans hr) Bool.noConfusion
  | stall | none | setGie | illegal => exact .inl ⟨rfl, rfl⟩
  | busy _ hb => exact (advance_case hb).latches.imp_right .inr
  | command _ hi _ i => exact (commandBlock_latches c.params s.block i).imp_right fun hsetup => .inl ⟨hi, hsetup⟩

/-- R28: `INIT_DONE` changes only by an accepted INIT, which sets it. -/
theorem StepCase.initDone {c : Configuration} {s t : State} (h : StepCase c s t) (hr : s.now.rst = false) :
    t.block.initDone = s.block.initDone ∨
    (t.block.initDone = true ∧ s.accepting = true ∧ s.request = .cmd (encode .init)) := by
  cases h with
  | reset hr' => exact absurd (hr'.symm.trans hr) Bool.noConfusion
  | stall | none | setGie | illegal => exact .inl rfl
  | busy _ hb =>
    obtain ⟨-, -, hdone, -⟩ := (advance_case (p := c.params) (draw := s.now.draw) hb).frame
    exact .inl hdone
  | command hl hi w i hq hd =>
    cases i with
    | init => exact .inr ⟨rfl, s.accepting_iff.mpr ⟨hl, hi⟩, encode_of_decode hd ▸ hq⟩
    | send v =>
      obtain ⟨-, -, hdone, -⟩ := sendBlock_frame c.params v s.block
      exact .inl hdone

/-- R26: `CS` changes only at the start edge and at the end of the stop bit. -/
theorem StepCase.cs {c : Configuration} {s t : State} (h : StepCase c s t) (hr : s.now.rst = false) :
    t.block.cs = s.block.cs ∨
    (s.block.phase = .setup ∧ t.block.phase = .start ∧ t.block.cs = true) ∨
    (s.block.phase = .stop ∧ t.block.phase = .teardown ∧ t.block.cs = false) := by
  cases h with
  | reset hr' => exact absurd (hr'.symm.trans hr) Bool.noConfusion
  | stall | none | setGie | illegal => exact .inl rfl
  | busy _ hb =>
    rcases (advance_case (p := c.params) (draw := s.now.draw) hb).critical with
      ⟨hcs, -⟩ | ⟨hsetup, hstart, hcs, -⟩ | hstop
    · exact .inl hcs
    · exact .inr (.inl ⟨hsetup, hstart, hcs⟩)
    · exact .inr (.inr hstop)
  | command _ _ _ i => exact .inl (commandBlock_critical c.params s.block i).1

/-- Settles O47, latch by latch. -/
theorem onlyTheseEventsChangeTheLatches : Obligations.OnlyTheseEventsChangeTheLatches := by
  intro s t hr hs
  have hcase := stepCase_of_step hs
  refine ⟨fun hne => (hcase.latches hr).resolve_left ?_, (hcase.initDone hr).resolve_left, (hcase.cs hr).resolve_left⟩
  rintro ⟨hbyte, hsaved⟩
  exact hne.elim (absurd hbyte) (absurd hsaved)

/-! ### The order of the phases -/

/-- From a busy phase a live cycle stays in it or leads to the next; DATA begins at bit 0 and ends after bit 7. -/
theorem AdvanceCase.phase {p : Params} {draw : Bool} {b d : Block} (h : AdvanceCase p draw b d) :
    d.phase = b.phase ∨
    (b.phase = .setup ∧ d.phase = .start) ∨
    (b.phase = .start ∧ d.phase = .data ∧ d.bitIdx = 0) ∨
    (b.phase = .data ∧ d.phase = .stop ∧ b.bitIdx = 7) ∨
    (b.phase = .stop ∧ d.phase = .teardown) ∨
    (b.phase = .teardown ∧ d.phase = .idle) := by
  cases h with
  | within | data => exact .inl rfl
  | setup hp => exact .inr (.inl ⟨hp, rfl⟩)
  | start hp => exact .inr (.inr (.inl ⟨hp, rfl, rfl⟩))
  | last hp _ hi => exact .inr (.inr (.inr (.inl ⟨hp, rfl, hi⟩)))
  | stop hp => exact .inr (.inr (.inr (.inr (.inl ⟨hp, rfl⟩))))
  | teardown hp => exact .inr (.inr (.inr (.inr (.inr ⟨hp, rfl⟩))))

/-- Settles O48: a busy block follows the phases in order, and of the requests SEND alone leaves IDLE. -/
theorem phasesFollowInOrder : Obligations.PhasesFollowInOrder := by
  intro s t hr hs
  cases stepCase_of_step hs with
  | reset hr' => exact absurd (hr'.symm.trans hr) Bool.noConfusion
  | stall | none | setGie | illegal => exact .inl rfl
  | busy _ hb => exact (advance_case hb).phase.imp_right .inr
  | command hl hi w i hq hd =>
    cases i with
    | init => exact .inl (initBlock_phase _ _)
    | send v =>
      obtain ⟨hbyte, -, hsetup, -⟩ := sendBlock_loads Config.params v s.block
      exact .inr (.inl ⟨hi, hsetup, s.accepting_iff.mpr ⟨hl, hi⟩, v, encode_of_decode hd ▸ hq, hbyte⟩)

end Sys2Proof.Machine
